-- ==== Sys2Proof/Word.lean ====
section
/-! DEFINITION. The word types of the rchip8 CHIP-8 core: 8-bit bytes, 16-bit words, register numbers. -/

namespace Sys2Proof

/-- One memory byte, one V register, one timer (10_state.md R21, R22, R29, R30). -/
abbrev Byte := BitVec 8

/-- One instruction word, pc, I, or a stack entry (10_state.md R25 to R27; 30_encoding.md R80). -/
abbrev Word := BitVec 16

/-- A register number 0..15 (10_state.md R22). -/
abbrev Reg := Fin 16

/-- A 12-bit address immediate `nnn` (30_encoding.md R81). -/
abbrev Addr12 := BitVec 12

end Sys2Proof
end

