-- ==== Sys2Proof/Syntax.lean ====
section
/-! DEFINITION. The instructions: one constructor per row of spec/opcode_table.json (30_encoding.md R84), in its order.
Every operand has exactly the width of its field (R81), the `y` nibble of 8xy6 and 8xyE included, which the
instruction carries and does not read (R85). -/

namespace Sys2Proof

inductive Instr where
  /-- 00E0 CLS (43_graphics.md R170) -/
  | cls
  /-- 00EE RET (40_control_flow.md R110) -/
  | ret
  /-- 1nnn JP nnn (R111) -/
  | jp (nnn : Addr12)
  /-- 2nnn CALL nnn (R112) -/
  | call (nnn : Addr12)
  /-- 3xkk SE Vx, kk (R113) -/
  | seImm (x : Reg) (kk : Byte)
  /-- 4xkk SNE Vx, kk (R114) -/
  | sneImm (x : Reg) (kk : Byte)
  /-- 5xy0 SE Vx, Vy (R115) -/
  | seReg (x y : Reg)
  /-- 6xkk LD Vx, kk (41_arithmetic.md R130) -/
  | ldImm (x : Reg) (kk : Byte)
  /-- 7xkk ADD Vx, kk (R131) -/
  | addImm (x : Reg) (kk : Byte)
  /-- 8xy0 LD Vx, Vy (R132) -/
  | ldReg (x y : Reg)
  /-- 8xy1 OR Vx, Vy (R133) -/
  | orReg (x y : Reg)
  /-- 8xy2 AND Vx, Vy (R134) -/
  | andReg (x y : Reg)
  /-- 8xy3 XOR Vx, Vy (R135) -/
  | xorReg (x y : Reg)
  /-- 8xy4 ADD Vx, Vy (R136) -/
  | addReg (x y : Reg)
  /-- 8xy5 SUB Vx, Vy (R137) -/
  | subReg (x y : Reg)
  /-- 8xy6 SHR Vx (R138), `y` not read -/
  | shr (x y : Reg)
  /-- 8xy7 SUBN Vx, Vy (R139) -/
  | subnReg (x y : Reg)
  /-- 8xyE SHL Vx (R140), `y` not read -/
  | shl (x y : Reg)
  /-- 9xy0 SNE Vx, Vy (40_control_flow.md R116) -/
  | sneReg (x y : Reg)
  /-- Annn LD I, nnn (42_memory_index.md R150) -/
  | ldI (nnn : Addr12)
  /-- Bnnn JP V0, nnn (40_control_flow.md R117) -/
  | jpV0 (nnn : Addr12)
  /-- Cxkk RND Vx, kk (41_arithmetic.md R145) -/
  | rnd (x : Reg) (kk : Byte)
  /-- Dxyn DRW Vx, Vy, n (43_graphics.md R171) -/
  | drw (x y : Reg) (n : BitVec 4)
  /-- Ex9E SKP Vx (44_timer_input.md R180) -/
  | skp (x : Reg)
  /-- ExA1 SKNP Vx (R181) -/
  | sknp (x : Reg)
  /-- Fx07 LD Vx, DT (R182) -/
  | ldVxDt (x : Reg)
  /-- Fx15 LD DT, Vx (R183) -/
  | ldDtVx (x : Reg)
  /-- Fx18 LD ST, Vx (R184) -/
  | ldStVx (x : Reg)
  /-- Fx1E ADD I, Vx (42_memory_index.md R151) -/
  | addI (x : Reg)
  /-- Fx0A LD Vx, K (44_timer_input.md R185) -/
  | ldVxK (x : Reg)
  /-- Fx29 LD F, Vx (42_memory_index.md R153) -/
  | ldF (x : Reg)
  /-- Fx33 LD B, Vx (R154) -/
  | ldB (x : Reg)
  /-- Fx55 LD [I], Vx (R155) -/
  | storeRegs (x : Reg)
  /-- Fx65 LD Vx, [I] (R156) -/
  | loadRegs (x : Reg)
  /-- 0000 NOP (40_control_flow.md R118) -/
  | nop
  deriving DecidableEq, Repr

end Sys2Proof
end

