-- ==== Sys2Proof/WellFormed.lean ====
section
/-! DEFINITION. Which words are instructions, written from the exact-match constraints of 30_encoding.md R85 and not
from the opcode table that Decode.lean holds, so that the two can be held against each other. -/

namespace Sys2Proof

/-- Top nibble 0: only the three exact words are legal (R85). -/
def legalTop0 (w : Word) : Bool := w == 0x0000#16 || w == 0x00E0#16 || w == 0x00EE#16

/-- 5xy0 and 9xy0: the fourth nibble must be 0 (R85). -/
def legalLow0 (w : Word) : Bool := w.extractLsb' 0 4 == 0#4

/-- 8xy_: the fourth nibble must be one of 0..7 or E (R85). -/
def legalLow8 (w : Word) : Bool :=
  [0#4, 1#4, 2#4, 3#4, 4#4, 5#4, 6#4, 7#4, 0xE#4].contains (w.extractLsb' 0 4)

/-- Ex__: the low byte must be 9E or A1 (R85). -/
def legalLowE (w : Word) : Bool := [0x9E#8, 0xA1#8].contains (w.extractLsb' 0 8)

/-- Fx__: the low byte must be one of the nine listed (R85). -/
def legalLowF (w : Word) : Bool :=
  [0x07#8, 0x0A#8, 0x15#8, 0x18#8, 0x1E#8, 0x29#8, 0x33#8, 0x55#8, 0x65#8].contains (w.extractLsb' 0 8)

/-- The legal words (R85): each top nibble has its constraint, and ten of them have none. -/
def legalWord (w : Word) : Bool :=
  match (w.extractLsb' 12 4).toNat with
  | 0 => legalTop0 w
  | 5 => legalLow0 w
  | 8 => legalLow8 w
  | 9 => legalLow0 w
  | 14 => legalLowE w
  | 15 => legalLowF w
  | _ => true

/-- An instruction TERM has nothing left to check: every operand's type is exactly its field's range (R81), and every
field value is legal in its pattern (R84, R85). What can be ill-formed is a word: see `legalWord`. -/
def Instr.wellFormed (_ : Instr) : Bool := true

end Sys2Proof
end

