-- ==== Sys2Proof/Decode.lean ====
section
/-! DEFINITION. The decoder, written from the patterns of 30_encoding.md R84, and after it the encoder, written from the
same patterns. Decoding is total on any bytes and rejects by name. -/

namespace Sys2Proof

/-- The word of two bytes in memory order: the first is the high byte (20_memory.md R57, R58). -/
def joinBytes (hi lo : Byte) : Word := hi ++ lo

/-- The byte of a word that stands at the lower address. -/
def highByte (w : Word) : Byte := w.extractLsb' 8 8

/-- The byte of a word that stands at the higher address. -/
def lowByte (w : Word) : Byte := w.extractLsb' 0 8

/-- Nibble `k` of a word, nibble 0 the least significant (30_encoding.md R81). -/
def nibble (w : Word) (k : Nat) : BitVec 4 := w.extractLsb' (4 * k) 4

/-- Field `x`, w[11:8]. -/
def fieldX (w : Word) : Reg := (nibble w 2).toFin

/-- Field `y`, w[7:4]. -/
def fieldY (w : Word) : Reg := (nibble w 1).toFin

/-- Field `n`, w[3:0]. -/
def fieldN (w : Word) : BitVec 4 := nibble w 0

/-- Field `kk`, w[7:0]. -/
def fieldKk (w : Word) : Byte := w.extractLsb' 0 8

/-- Field `nnn`, w[11:0]. -/
def fieldNnn (w : Word) : Addr12 := w.extractLsb' 0 12

/-- One row of the opcode table: a pattern of four digits, top nibble first, where `none` is a field letter that
matches any nibble (R83), and the instruction made of the word's fields. -/
structure OpRow where
  d3 : Option (BitVec 4)
  d2 : Option (BitVec 4)
  d1 : Option (BitVec 4)
  d0 : Option (BitVec 4)
  build : Word → Instr

/-- A pattern's digit must equal the word's nibble; a field letter matches any (R83). -/
def digitMatches (d : Option (BitVec 4)) (n : BitVec 4) : Bool :=
  match d with
  | none => true
  | some c => c == n

/-- Whether a word matches a row's pattern (R83). -/
def OpRow.accepts (r : OpRow) (w : Word) : Bool :=
  digitMatches r.d3 (nibble w 3) && digitMatches r.d2 (nibble w 2) &&
    digitMatches r.d1 (nibble w 1) && digitMatches r.d0 (nibble w 0)

/-- R84, rows 1 to 9. -/
def opRows1 : List OpRow :=
  [ ⟨some 0, some 0, some 0xE, some 0, fun _ => .cls⟩,
    ⟨some 0, some 0, some 0xE, some 0xE, fun _ => .ret⟩,
    ⟨some 1, none, none, none, fun w => .jp (fieldNnn w)⟩,
    ⟨some 2, none, none, none, fun w => .call (fieldNnn w)⟩,
    ⟨some 3, none, none, none, fun w => .seImm (fieldX w) (fieldKk w)⟩,
    ⟨some 4, none, none, none, fun w => .sneImm (fieldX w) (fieldKk w)⟩,
    ⟨some 5, none, none, some 0, fun w => .seReg (fieldX w) (fieldY w)⟩,
    ⟨some 6, none, none, none, fun w => .ldImm (fieldX w) (fieldKk w)⟩,
    ⟨some 7, none, none, none, fun w => .addImm (fieldX w) (fieldKk w)⟩ ]

/-- R84, rows 10 to 18. -/
def opRows2 : List OpRow :=
  [ ⟨some 8, none, none, some 0, fun w => .ldReg (fieldX w) (fieldY w)⟩,
    ⟨some 8, none, none, some 1, fun w => .orReg (fieldX w) (fieldY w)⟩,
    ⟨some 8, none, none, some 2, fun w => .andReg (fieldX w) (fieldY w)⟩,
    ⟨some 8, none, none, some 3, fun w => .xorReg (fieldX w) (fieldY w)⟩,
    ⟨some 8, none, none, some 4, fun w => .addReg (fieldX w) (fieldY w)⟩,
    ⟨some 8, none, none, some 5, fun w => .subReg (fieldX w) (fieldY w)⟩,
    ⟨some 8, none, none, some 6, fun w => .shr (fieldX w) (fieldY w)⟩,
    ⟨some 8, none, none, some 7, fun w => .subnReg (fieldX w) (fieldY w)⟩,
    ⟨some 8, none, none, some 0xE, fun w => .shl (fieldX w) (fieldY w)⟩ ]

/-- R84, rows 19 to 25. -/
def opRows3 : List OpRow :=
  [ ⟨some 9, none, none, some 0, fun w => .sneReg (fieldX w) (fieldY w)⟩,
    ⟨some 0xA, none, none, none, fun w => .ldI (fieldNnn w)⟩,
    ⟨some 0xB, none, none, none, fun w => .jpV0 (fieldNnn w)⟩,
    ⟨some 0xC, none, none, none, fun w => .rnd (fieldX w) (fieldKk w)⟩,
    ⟨some 0xD, none, none, none, fun w => .drw (fieldX w) (fieldY w) (fieldN w)⟩,
    ⟨some 0xE, none, some 9, some 0xE, fun w => .skp (fieldX w)⟩,
    ⟨some 0xE, none, some 0xA, some 1, fun w => .sknp (fieldX w)⟩ ]

/-- R84, rows 26 to 35. -/
def opRows4 : List OpRow :=
  [ ⟨some 0xF, none, some 0, some 7, fun w => .ldVxDt (fieldX w)⟩,
    ⟨some 0xF, none, some 1, some 5, fun w => .ldDtVx (fieldX w)⟩,
    ⟨some 0xF, none, some 1, some 8, fun w => .ldStVx (fieldX w)⟩,
    ⟨some 0xF, none, some 1, some 0xE, fun w => .addI (fieldX w)⟩,
    ⟨some 0xF, none, some 0, some 0xA, fun w => .ldVxK (fieldX w)⟩,
    ⟨some 0xF, none, some 2, some 9, fun w => .ldF (fieldX w)⟩,
    ⟨some 0xF, none, some 3, some 3, fun w => .ldB (fieldX w)⟩,
    ⟨some 0xF, none, some 5, some 5, fun w => .storeRegs (fieldX w)⟩,
    ⟨some 0xF, none, some 6, some 5, fun w => .loadRegs (fieldX w)⟩,
    ⟨some 0, some 0, some 0, some 0, fun _ => .nop⟩ ]

/-- The 35 rows of R84, in its order. -/
def opcodeTable : List OpRow := opRows1 ++ opRows2 ++ opRows3 ++ opRows4

/-- `Decode(w)`: the instruction of the row that matches, or none for an illegal word (R83, R88). -/
def decodeWord (w : Word) : Option Instr :=
  (opcodeTable.find? fun r => r.accepts w).map fun r => r.build w

/-- Why bytes are no instruction. -/
inductive DecodeReject where
  /-- fewer than two bytes are there (R80: every instruction is two bytes) -/
  | truncated (have_ : Nat)
  /-- the word matches no row of R84 (R88) -/
  | illegalWord (w : Word)
  deriving DecidableEq, Repr

/-- Decoding from bytes in memory order: the instruction and the bytes after it, or a rejection by name. -/
def decode : List Byte → Except DecodeReject (Instr × List Byte)
  | hi :: lo :: rest =>
    match decodeWord (joinBytes hi lo) with
    | some i => .ok (i, rest)
    | none => .error (.illegalWord (joinBytes hi lo))
  | short => .error (.truncated short.length)

/-- The host's table word: `w` numbered as spec/opcode_table.json numbers it. Every row has 16 bits (R80); a longer
instruction does not exist. -/
def decodeTableWord (nbits w : Nat) : Option Instr :=
  if nbits ≤ 16 then
    let word : Word := BitVec.ofNat 16 (w % 2 ^ nbits)
    match decode [highByte word, lowByte word] with
    | .ok (i, _) => some i
    | .error _ => none
  else none

/-- Four nibbles, most significant first, as a word (00_scope.md R8). -/
def ofNibbles (d3 d2 d1 d0 : BitVec 4) : Word := ((d3 ++ d2) ++ d1) ++ d0

/-- A register number as the nibble that encodes it. -/
def regNibble (x : Reg) : BitVec 4 := BitVec.ofFin x

/-- A word `op x kk`. -/
def ofXkk (op : BitVec 4) (x : Reg) (kk : Byte) : Word := (op ++ regNibble x) ++ kk

/-- A word `op nnn`. -/
def ofNnn (op : BitVec 4) (nnn : Addr12) : Word := op ++ nnn

/-- A word `op x y n`. -/
def ofXyn (op : BitVec 4) (x y : Reg) (n : BitVec 4) : Word := ofNibbles op (regNibble x) (regNibble y) n

/-- The word of an instruction, from the patterns of R84. -/
def encode : Instr → Word
  | .cls => 0x00E0
  | .ret => 0x00EE
  | .jp nnn => ofNnn 0x1 nnn
  | .call nnn => ofNnn 0x2 nnn
  | .seImm x kk => ofXkk 0x3 x kk
  | .sneImm x kk => ofXkk 0x4 x kk
  | .seReg x y => ofXyn 0x5 x y 0
  | .ldImm x kk => ofXkk 0x6 x kk
  | .addImm x kk => ofXkk 0x7 x kk
  | .ldReg x y => ofXyn 0x8 x y 0
  | .orReg x y => ofXyn 0x8 x y 1
  | .andReg x y => ofXyn 0x8 x y 2
  | .xorReg x y => ofXyn 0x8 x y 3
  | .addReg x y => ofXyn 0x8 x y 4
  | .subReg x y => ofXyn 0x8 x y 5
  | .shr x y => ofXyn 0x8 x y 6
  | .subnReg x y => ofXyn 0x8 x y 7
  | .shl x y => ofXyn 0x8 x y 0xE
  | .sneReg x y => ofXyn 0x9 x y 0
  | .ldI nnn => ofNnn 0xA nnn
  | .jpV0 nnn => ofNnn 0xB nnn
  | .rnd x kk => ofXkk 0xC x kk
  | .drw x y n => ofXyn 0xD x y n
  | .skp x => ofXkk 0xE x 0x9E
  | .sknp x => ofXkk 0xE x 0xA1
  | .ldVxDt x => ofXkk 0xF x 0x07
  | .ldDtVx x => ofXkk 0xF x 0x15
  | .ldStVx x => ofXkk 0xF x 0x18
  | .addI x => ofXkk 0xF x 0x1E
  | .ldVxK x => ofXkk 0xF x 0x0A
  | .ldF x => ofXkk 0xF x 0x29
  | .ldB x => ofXkk 0xF x 0x33
  | .storeRegs x => ofXkk 0xF x 0x55
  | .loadRegs x => ofXkk 0xF x 0x65
  | .nop => 0x0000

/-- The bytes of an instruction in memory order. -/
def encodeBytes (i : Instr) : List Byte := [highByte (encode i), lowByte (encode i)]

/-- The match and mask columns of R84, row by row: (match, mask). The decoder does not use them; a statement holds the
decoder against them. -/
def maskRows : List (Word × Word) :=
  [(0x00E0, 0xFFFF), (0x00EE, 0xFFFF), (0x1000, 0xF000), (0x2000, 0xF000), (0x3000, 0xF000), (0x4000, 0xF000),
   (0x5000, 0xF00F), (0x6000, 0xF000), (0x7000, 0xF000), (0x8000, 0xF00F), (0x8001, 0xF00F), (0x8002, 0xF00F)] ++
  [(0x8003, 0xF00F), (0x8004, 0xF00F), (0x8005, 0xF00F), (0x8006, 0xF00F), (0x8007, 0xF00F), (0x800E, 0xF00F),
   (0x9000, 0xF00F), (0xA000, 0xF000), (0xB000, 0xF000), (0xC000, 0xF000), (0xD000, 0xF000), (0xE09E, 0xF0FF)] ++
  [(0xE0A1, 0xF0FF), (0xF007, 0xF0FF), (0xF015, 0xF0FF), (0xF018, 0xF0FF), (0xF01E, 0xF0FF), (0xF00A, 0xF0FF),
   (0xF029, 0xF0FF), (0xF033, 0xF0FF), (0xF055, 0xF0FF), (0xF065, 0xF0FF), (0x0000, 0xFFFF)]

/-- The row of R84 an instruction belongs to, counted from 0. -/
def Instr.rowIndex : Instr → Fin 35
  | .cls => 0
  | .ret => 1
  | .jp _ => 2
  | .call _ => 3
  | .seImm _ _ => 4
  | .sneImm _ _ => 5
  | .seReg _ _ => 6
  | .ldImm _ _ => 7
  | .addImm _ _ => 8
  | .ldReg _ _ => 9
  | .orReg _ _ => 10
  | .andReg _ _ => 11
  | .xorReg _ _ => 12
  | .addReg _ _ => 13
  | .subReg _ _ => 14
  | .shr _ _ => 15
  | .subnReg _ _ => 16
  | .shl _ _ => 17
  | .sneReg _ _ => 18
  | .ldI _ => 19
  | .jpV0 _ => 20
  | .rnd _ _ => 21
  | .drw _ _ _ => 22
  | .skp _ => 23
  | .sknp _ => 24
  | .ldVxDt _ => 25
  | .ldDtVx _ => 26
  | .ldStVx _ => 27
  | .addI _ => 28
  | .ldVxK _ => 29
  | .ldF _ => 30
  | .ldB _ => 31
  | .storeRegs _ => 32
  | .loadRegs _ => 33
  | .nop => 34

end Sys2Proof
end

