-- ==== Sys2Proof/Config.lean ====
section
/-! DEFINITION. What an implementation fixes: the sizes of 00_scope.md R6, the OPEN parameters of R7 and the free draw.
An OPEN parameter is an opaque constant, so that a claim holds for every value of it (log 2). FONT is an argument of what
reads it, of type Font; its default bytes are Machine.defaultFont (Machine/Ops.lean, log 4). -/

namespace Sys2Proof

namespace Config

/-- `MEM_SIZE`: addresses 0..4095 exist (00_scope.md R6, 20_memory.md R50). -/
@[simp] abbrev memSize : Nat := 4096

/-- The font takes addresses 0..79 (00_scope.md R6, 20_memory.md R51). -/
@[simp] abbrev fontSize : Nat := 80

/-- `PROG_BASE`: where programs are loaded and where pc starts (00_scope.md R6). -/
@[simp] abbrev progBase : Nat := 512

/-- `MAX_PROG`: the longest program, in bytes (00_scope.md R6). -/
@[simp] abbrev maxProg : Nat := 3584

/-- `MAX_FETCH_PC`: the highest pc a fetch may use (00_scope.md R6, 20_memory.md R57). -/
@[simp] abbrev maxFetchPc : Nat := 4094

/-- `GLYPH_BYTES`: bytes per font glyph (00_scope.md R6). -/
@[simp] abbrev glyphBytes : Nat := 5

/-- A value of `FONT`, the configuration parameter of 00_scope.md R7 and 10_state.md R23: the 80 bytes at addresses 0..79,
glyph g at 5·g, top row first. -/
abbrev Font := Vector Byte fontSize

end Config

/-- The values of `SHIFT_VF_RESULT` (41_arithmetic.md R141). -/
inductive ShiftVfResult where
  | flag
  | seqResult
  | capturedResult
  deriving DecidableEq, Repr, Inhabited

/-- The values of `SOUND_SAMPLE` (60_exceptions.md R221). -/
inductive SoundSample where
  | pre
  | post
  deriving DecidableEq, Repr, Inhabited

namespace Config

/-- `SHIFT_VF_RESULT`, OPEN (41_arithmetic.md R141): what VF holds after 8Fy6 and 8FyE. Log 2. -/
opaque shiftVfResult : ShiftVfResult

/-- `FX1E_VF_CLEAR`, OPEN (42_memory_index.md R152): whether Fx1E without overflow clears VF. Log 2. -/
opaque fx1eVfClear : Bool

/-- `SOUND_SAMPLE`, OPEN (60_exceptions.md R221): which value of ST `advance_timers` reports on. Log 2. -/
opaque soundSample : SoundSample

/-- The draw `rand` of the `n`-th executed Cxkk: any byte r with 0 ≤ r ≤ kk (41_arithmetic.md R145), and nothing
else is known of it. Log 3. -/
opaque randDraw (n : Nat) (kk : Byte) : Fin (kk.toNat + 1)

end Config

end Sys2Proof
end

