-- ==== Sys2Proof/Machine/State.lean ====
section
/-! DEFINITION. The state of the core (10_state.md R20), plain data, and its reset value (R37). -/

namespace Sys2Proof.Machine

/-- The seven synchronous faults of 60_exceptions.md R200, "and no others". -/
inductive FaultReason where
  /-- the word matches no row of the opcode table; raised at decode -/
  | decodeError
  /-- 2nnn with sp = 16 -/
  | stackOverflow
  /-- 00EE with sp = 0 -/
  | stackUnderflow
  /-- a fetch with pc > 4094 -/
  | fetchOutOfBounds
  /-- Dxyn, Fx33, Fx55 or Fx65 with an accessed address > 4095 -/
  | memoryOutOfBounds
  /-- Fx33 or Fx55 with a written address ≤ 79 -/
  | fontWrite
  /-- Ex9E or ExA1 with V[x] > 15 -/
  | keyIndexOutOfRange
  deriving DecidableEq, Repr

/-- The address or key value that faults 5 to 7 record (R200). -/
inductive FaultInfo where
  | address (a : Nat)
  | key (k : Byte)
  deriving DecidableEq, Repr

/-- What an instruction's own check found: the reason and the recorded info. -/
structure FaultCause where
  reason : FaultReason
  info : Option FaultInfo
  deriving DecidableEq, Repr

/-- The fault record of 10_state.md R33: `word` is absent for FetchOutOfBounds. -/
structure FaultRecord where
  reason : FaultReason
  pc0 : Word
  word : Option Word
  info : Option FaultInfo
  deriving DecidableEq, Repr

/-- 10_state.md R33. -/
inductive Status where
  | running
  | halted (r : FaultRecord)
  deriving DecidableEq, Repr

/-- Memory: the cells that differ from what an unlisted address reads as, addresses strictly rising. Log 5. -/
abbrev Memory := List Host.Cell

/-- The 64×32 grid, `fb[row][col]` (R32). -/
abbrev Framebuffer := Vector (Vector Bool 64) 32

/-- The machine state (R20): the ten architectural components, the status (R33), and the model's own draw counter. -/
structure State where
  /-- V0..VF (R22) -/
  v : Vector Byte 16
  /-- pc (R25) -/
  pc : Word
  /-- I (R26) -/
  index : Word
  /-- the call stack (R27) -/
  stack : Vector Word 16
  /-- sp, legal values 0..16 (R28; log 6) -/
  sp : Fin 17
  /-- the delay timer DT (R29) -/
  dt : Byte
  /-- the sound timer ST (R30) -/
  st : Byte
  /-- the key latches (R31) -/
  keys : Vector Bool 16
  /-- the framebuffer (R32) -/
  fb : Framebuffer
  /-- the memory (R21) -/
  mem : Memory
  /-- Running or Halted (R33) -/
  status : Status
  /-- the model's own: how many random draws have been taken (log 3) -/
  draws : Nat
  deriving DecidableEq, Repr

/-- How a step stops. -/
inductive Fault where
  /-- Raised by `step` and by every host operation but `initialize` when the machine is Halted: it has no step
  (30_encoding.md R95, 60_exceptions.md R202). Safe: nothing is claimed of a Halted machine's next state. Log 1. -/
  | halted (r : FaultRecord)
  deriving DecidableEq, Repr

/-- Why an instruction has no meaning. -/
inductive Refusal where
  /-- An instruction without a meaning yet, by its mnemonic. No arm of `exec` answers it. Safe: a refused
  instruction proves nothing. -/
  | notModelled (mnemonic : String)
  deriving DecidableEq, Repr

/-- The state after `initialize`, every component as 10_state.md R37 gives it: nothing listed in memory, which then
reads as the default FONT at 0..79 and 0 elsewhere; `State.resetWith` is the same for any FONT (R23, log 4). `draws` is 0, a
DESIGN CHOICE (log 3). -/
def State.reset : State where
  v := Vector.replicate 16 0
  pc := 0x0200
  index := 0
  stack := Vector.replicate 16 0
  sp := 0
  dt := 0
  st := 0
  keys := Vector.replicate 16 false
  fb := Vector.replicate 32 (Vector.replicate 64 false)
  mem := []
  status := .running
  draws := 0

end Sys2Proof.Machine
end

