-- ==== Sys2Proof/Machine/Ops.lean ====
section
/-! DEFINITION. The named operations over memory, registers, pc, stack and framebuffer, and taking a fault. -/

namespace Sys2Proof.Machine

/-! ### Memory (20_memory.md) -/

/-- Glyphs 0 to 7 of the default FONT (10_state.md R23). PRESUMED there from general knowledge; log 4. -/
def fontLow : List Byte :=
  [0xF0, 0x90, 0x90, 0x90, 0xF0] ++ [0x20, 0x60, 0x20, 0x20, 0x70] ++
  [0xF0, 0x10, 0xF0, 0x80, 0xF0] ++ [0xF0, 0x10, 0xF0, 0x10, 0xF0] ++
  [0x90, 0x90, 0xF0, 0x10, 0x10] ++ [0xF0, 0x80, 0xF0, 0x10, 0xF0] ++
  [0xF0, 0x80, 0xF0, 0x90, 0xF0] ++ [0xF0, 0x10, 0x20, 0x40, 0x40]

/-- Glyphs 8 to F of the default FONT (R23; log 4). -/
def fontHigh : List Byte :=
  [0xF0, 0x90, 0xF0, 0x90, 0xF0] ++ [0xF0, 0x90, 0xF0, 0x10, 0xF0] ++
  [0xF0, 0x90, 0xF0, 0x90, 0x90] ++ [0xE0, 0x90, 0xE0, 0x90, 0xE0] ++
  [0xF0, 0x80, 0x80, 0x80, 0xF0] ++ [0xE0, 0x90, 0x90, 0x90, 0xE0] ++
  [0xF0, 0x80, 0xF0, 0x80, 0xF0] ++ [0xF0, 0x80, 0xF0, 0x80, 0x80]

/-- The default FONT as the bytes from address 0 on (R23; log 4). -/
def fontImage : List Byte := fontLow ++ fontHigh

/-- The default of the parameter FONT (R23). -/
def defaultFont : Config.Font := ⟨fontImage.toArray, by decide⟩

/-- What an unlisted address reads as: the contents it has at `State.reset`, the default FONT at 0..79 and 0 above
(10_state.md R37; log 5). -/
def resetByte (a : Nat) : Byte := fontImage.getD a 0

/-- One byte of memory. Callers check the address first (`readFault`). -/
def Memory.read : Memory → Nat → Byte
  | [], a => resetByte a
  | (k, b) :: m, a => if k = a then b else Memory.read m a

/-- A cell in front of a memory, left out when it holds its reset contents. -/
def consCell (a : Nat) (b : Byte) (m : Memory) : Memory := if b = resetByte a then m else (a, b) :: m

/-- Memory with byte `b` at address `a`, kept in canonical form. -/
def Memory.write : Memory → Nat → Byte → Memory
  | [], a, b => consCell a b []
  | (k, c) :: m, a, b =>
    if a < k then consCell a b ((k, c) :: m)
    else if a = k then consCell a b m
    else (k, c) :: Memory.write m a b

/-- Memory with the bytes `bs` from address `a` on. -/
def Memory.writeBytes : Memory → Nat → List Byte → Memory
  | m, _, [] => m
  | m, a, b :: bs => Memory.writeBytes (Memory.write m a b) (a + 1) bs

/-- The `n` bytes from address `a` on. -/
def Memory.readBytes (m : Memory) (a n : Nat) : List Byte := (List.range n).map fun k => Memory.read m (a + k)

/-- The canonical memory whose bytes from address `a` on are `bs` and whose other bytes are their reset contents. -/
def Memory.ofBytes : Nat → List Byte → Memory
  | _, [] => []
  | a, b :: bs => consCell a b (Memory.ofBytes (a + 1) bs)

/-- Canonical from address `lo` on: addresses strictly rising and below 4096, no entry at its reset contents. -/
def Memory.wfFrom : Nat → Memory → Bool
  | _, [] => true
  | lo, (k, b) :: m => decide (lo ≤ k) && decide (k < Config.memSize) && (b != resetByte k) && Memory.wfFrom (k + 1) m

/-- The canonical form (log 5). -/
def Memory.wf (m : Memory) : Bool := Memory.wfFrom 0 m

/-- The check of `MemRead` (20_memory.md R55), on an exactly computed address. -/
def readFault (a : Nat) : Option FaultCause :=
  if a > 4095 then some ⟨.memoryOutOfBounds, some (.address a)⟩ else none

/-- The checks of `MemWrite` (R56), in its order. -/
def writeFault (a : Nat) : Option FaultCause :=
  if a > 4095 then some ⟨.memoryOutOfBounds, some (.address a)⟩
  else if a ≤ 79 then some ⟨.fontWrite, some (.address a)⟩
  else none

/-- The first failing check of several addresses, in the order given (60_exceptions.md R205). -/
def firstFault (check : Nat → Option FaultCause) (addrs : List Nat) : Option FaultCause := addrs.findSome? check

/-! ### Registers, pc and stack -/

/-- Register 15, VF (10_state.md R22, R24). -/
abbrev VF : Reg := 15

/-- `V[x]` (00_scope.md R10). -/
def State.getV (s : State) (x : Reg) : Byte := s.v[x]

/-- `V[x] <- b`. -/
def State.setV (s : State) (x : Reg) (b : Byte) : State := { s with v := s.v.set x b }

/-- `V[k], V[k+1], … <- bs`; a register number above 15 does not occur and is ignored. -/
def setVFrom (v : Vector Byte 16) : Nat → List Byte → Vector Byte 16
  | _, [] => v
  | k, b :: bs => setVFrom (v.setIfInBounds k b) (k + 1) bs

/-- `pc <- p`. -/
def State.setPc (s : State) (p : Word) : State := { s with pc := p }

/-- The fetch advance, `pc <- pc +_16 2` (20_memory.md R57). -/
def State.advance (s : State) : State := { s with pc := s.pc + 2 }

/-- "Skip next instruction (pc += 2)" when `c` holds (30_encoding.md R99). -/
def State.skipIf (s : State) (c : Bool) : State := { s with pc := if c then s.pc + 2 else s.pc }

/-- `Fetch()` without the advance: the word at pc, or none where pc > 4094 (20_memory.md R57). -/
def State.fetch (s : State) : Option Word :=
  if s.pc.toNat > Config.maxFetchPc then none
  else some (joinBytes (s.mem.read s.pc.toNat) (s.mem.read (s.pc.toNat + 1)))

/-- The push of 2nnn (40_control_flow.md R112), none when sp = 16. -/
def State.push (s : State) (ret : Word) : Option State :=
  if h : s.sp.val < 16 then some { s with stack := s.stack.set s.sp.val ret, sp := ⟨s.sp.val + 1, by omega⟩ }
  else none

/-- The pop of 00EE (R110), none when sp = 0. The entry is not cleared (10_state.md R27). -/
def State.pop (s : State) : Option (Word × State) :=
  if h : 0 < s.sp.val then
    some (s.stack[s.sp.val - 1]'(by omega), { s with sp := ⟨s.sp.val - 1, by omega⟩ })
  else none

/-! ### Framebuffer (43_graphics.md) -/

/-- `fb[row][col]`. -/
def pixel (fb : Framebuffer) (row : Fin 32) (col : Fin 64) : Bool := fb[row][col]

/-- `fb[row][col] <- NOT fb[row][col]`. -/
def toggle (fb : Framebuffer) (row : Fin 32) (col : Fin 64) : Framebuffer :=
  fb.set row (fb[row].set col (!pixel fb row col))

/-- The framebuffer with every cell unlit (R170). -/
def clearFb : Framebuffer := Vector.replicate 32 (Vector.replicate 64 false)

/-- The framebuffer and the collision flag `hit` while a sprite is drawn. -/
abbrev Canvas := Framebuffer × Bool

/-- One set sprite bit at a destination pixel: note a lit pixel, then toggle it (R171). -/
def plot (row : Fin 32) (col : Fin 64) (c : Canvas) : Canvas :=
  (toggle c.1 row col, c.2 || pixel c.1 row col)

/-- Bit of a sprite row at column `c`: bit 7 is column 0, the leftmost (R172; log 7). -/
def spriteBit (b : Byte) (c : Nat) : Bool := b.getLsbD (7 - c)

/-- The inner loop of R171: columns 0..7 of one sprite row, from column `cx` of the screen, on screen row `row`. -/
def drawRow (cx : Nat) (row : Fin 32) (b : Byte) (cv : Canvas) : Canvas :=
  (List.range 8).foldl (fun acc c => if spriteBit b c then plot row (Fin.ofNat 64 (cx + c)) acc else acc) cv

/-- The outer loop of R171: the rows of the sprite, from screen row `cy` on. -/
def drawRows (cx : Nat) : Nat → List Byte → Canvas → Canvas
  | _, [], cv => cv
  | cy, b :: bs, cv => drawRows cx (cy + 1) bs (drawRow cx (Fin.ofNat 32 cy) b cv)

/-! ### Taking a fault (60_exceptions.md R200, R201) -/

/-- The code of R200's table. -/
def FaultReason.code : FaultReason → Nat
  | .decodeError => 1
  | .stackOverflow => 2
  | .stackUnderflow => 3
  | .fetchOutOfBounds => 4
  | .memoryOutOfBounds => 5
  | .fontWrite => 6
  | .keyIndexOutOfRange => 7

/-- Fault entry (R201): every architectural component as before the operation, and status Halted with the record. -/
def State.takeFault (s : State) (reason : FaultReason) (word : Option Word) (info : Option FaultInfo) : State :=
  { s with status := .halted { reason := reason, pc0 := s.pc, word := word, info := info } }

/-- A fault raised by instruction `i` in state `s`, the state before its fetch advance: the machine takes it (log 1).
The recorded word is the instruction's own, which is the word fetched, since an instruction has one word (R84). There is no
return from a fault (R203). -/
def raise (i : Instr) (c : FaultCause) (s : State) : Host.Outcome State Fault Refusal :=
  .next (s.takeFault c.reason (some (encode i)) c.info)

end Sys2Proof.Machine
end

