-- ==== Sys2Proof/Machine/Operands.lean ====
section
/-! DEFINITION. The operand forms (30_encoding.md R82): immediates, effective addresses through I, key indices. -/

namespace Sys2Proof.Machine

/-- `zext_16(nnn)`. -/
def immAddr (nnn : Addr12) : Word := nnn.zeroExtend 16

/-- `zext_16(b)` of a byte. -/
def zextByte (b : Byte) : Word := b.zeroExtend 16

/-- The exact effective address I + k, no wrap (20_memory.md R69). -/
def State.ea (s : State) (k : Nat) : Nat := s.index.toNat + k

/-- The addresses I, I+1, …, I+n−1, ascending (20_memory.md R60, R69). -/
def State.eas (s : State) (n : Nat) : List Nat := (List.range n).map s.ea

/-- V0..V[x] as a list (42_memory_index.md R155). -/
def State.regsUpTo (s : State) (x : Reg) : List Byte := s.v.toList.take (x.val + 1)

/-- A register value as a key index, none above 15 (44_timer_input.md R180). -/
def keyIndex (b : Byte) : Option (Fin 16) := if h : b.toNat < 16 then some ⟨b.toNat, h⟩ else none

/-- The lowest pressed key, none when no key is pressed (R185). -/
def firstKey (keys : Vector Bool 16) : Option (Fin 16) := (List.finRange 16).find? fun k => keys[k]

/-- The key index as the byte written to V[x]. -/
def keyByte (k : Fin 16) : Byte := BitVec.ofNat 8 k.val

/-- The decimal digits of a byte: hundreds, tens, ones (42_memory_index.md R154). -/
def bcdDigits (b : Byte) : List Byte :=
  [BitVec.ofNat 8 (b.toNat / 100), BitVec.ofNat 8 (b.toNat / 10 % 10), BitVec.ofNat 8 (b.toNat % 10)]

/-- The draw of a Cxkk in state `s` (41_arithmetic.md R145): a free byte r with 0 ≤ r ≤ kk (log 3). -/
def State.draw (s : State) (kk : Byte) : Byte := BitVec.ofNat 8 (Config.randDraw s.draws kk).val

end Sys2Proof.Machine
end

