-- ==== Sys2Proof/Machine/Flags.lean ====
section
/-! DEFINITION. Every computation of VF as a flag (10_state.md R24). -/

namespace Sys2Proof.Machine

/-- A flag value as VF holds it: 1 or 0. -/
def flagByte (c : Bool) : Byte := if c then 1 else 0

/-- 8xy4: 1 if a + b > 255, else 0 (41_arithmetic.md R136). -/
def carryFlag (a b : Byte) : Byte := flagByte (decide (a.toNat + b.toNat > 255))

/-- 8xy5, and 8xy7 with the operands exchanged: 0 if a < b (borrow), else 1 (R137, R139). -/
def notBorrowFlag (a b : Byte) : Byte := if a.toNat < b.toNat then 0 else 1

/-- Which way a shift goes. -/
inductive ShiftDir where
  | right
  | left
  deriving DecidableEq, Repr

/-- The bit a shift pushes out: bit 0 to the right, bit 7 to the left (R138, R140). -/
def shiftedOut : ShiftDir → Byte → Byte
  | .right, a => flagByte (a.getLsbD 0)
  | .left, a => flagByte (a.getLsbD 7)

/-- The result of a shift by one, truncated to 8 bits (R138, R140). -/
def shifted : ShiftDir → Byte → Byte
  | .right, a => a >>> 1
  | .left, a => a <<< 1

/-- `ShiftVF(p, dir, a)`: what VF ends with when the shift's destination is VF itself (R141). -/
def shiftVF : ShiftVfResult → ShiftDir → Byte → Byte
  | .flag, dir, a => shiftedOut dir a
  | .seqResult, dir, a => shifted dir (shiftedOut dir a)
  | .capturedResult, dir, a => shifted dir a

/-- VF after Fx1E, from the exact sum, the parameter and VF before (42_memory_index.md R151, R152). -/
def indexFlag (clear : Bool) (sum : Nat) (vf : Byte) : Byte :=
  if sum > 0xFFFF then 1 else if clear then 0 else vf

/-- `Sound(p, st0, st1)`: what `advance_timers` reports (60_exceptions.md R221). -/
def soundFlag : SoundSample → Byte → Byte → Bool
  | .pre, st0, _ => st0 != 0
  | .post, _, st1 => st1 != 0

end Sys2Proof.Machine
end

