-- ==== Sys2Proof/Machine/Arithmetic.lean ====
section
/-! DEFINITION. The meanings of 41_arithmetic.md. Operands are read from the state before any write (30_encoding.md R97). -/

namespace Sys2Proof.Machine

/-- The shape of 8xy4, 8xy5 and 8xy7: V[x] first, the flag in VF last, so that the flag stands when x = F (R142). -/
def arithThenFlag (x : Reg) (result flag : Byte) (s : State) : Host.Outcome State Fault Refusal :=
  .next ((s.advance.setV x result).setV VF flag)

/-- The shape of 8xy6 and 8xyE: VF then V[x], or, when x = F, the one write of R141. -/
def shiftReg (p : ShiftVfResult) (dir : ShiftDir) (x : Reg) (s : State) : Host.Outcome State Fault Refusal :=
  if x = VF then .next (s.advance.setV VF (shiftVF p dir (s.getV x)))
  else .next ((s.advance.setV VF (shiftedOut dir (s.getV x))).setV x (shifted dir (s.getV x)))

/-- Cxkk with its draw `r` given (R145). -/
def rndWith (r : Byte) (x : Reg) (kk : Byte) (s : State) : State :=
  s.advance.setV x (r &&& kk)

/-- 6xkk (R130). -/
def execLdImm (x : Reg) (kk : Byte) (s : State) : Host.Outcome State Fault Refusal :=
  .next (s.advance.setV x kk)

/-- 7xkk (R131): no flag. -/
def execAddImm (x : Reg) (kk : Byte) (s : State) : Host.Outcome State Fault Refusal :=
  .next (s.advance.setV x (s.getV x + kk))

/-- 8xy0 (R132). -/
def execLdReg (x y : Reg) (s : State) : Host.Outcome State Fault Refusal :=
  .next (s.advance.setV x (s.getV y))

/-- 8xy1 (R133). -/
def execOrReg (x y : Reg) (s : State) : Host.Outcome State Fault Refusal :=
  .next (s.advance.setV x (s.getV x ||| s.getV y))

/-- 8xy2 (R134). -/
def execAndReg (x y : Reg) (s : State) : Host.Outcome State Fault Refusal :=
  .next (s.advance.setV x (s.getV x &&& s.getV y))

/-- 8xy3 (R135). -/
def execXorReg (x y : Reg) (s : State) : Host.Outcome State Fault Refusal :=
  .next (s.advance.setV x (s.getV x ^^^ s.getV y))

/-- 8xy4 (R136). -/
def execAddReg (x y : Reg) (s : State) : Host.Outcome State Fault Refusal :=
  arithThenFlag x (s.getV x + s.getV y) (carryFlag (s.getV x) (s.getV y)) s

/-- 8xy5 (R137). -/
def execSubReg (x y : Reg) (s : State) : Host.Outcome State Fault Refusal :=
  arithThenFlag x (s.getV x - s.getV y) (notBorrowFlag (s.getV x) (s.getV y)) s

/-- 8xy6 (R138): V[y] is not read. -/
def execShr (x _y : Reg) (s : State) : Host.Outcome State Fault Refusal :=
  shiftReg Config.shiftVfResult .right x s

/-- 8xy7 (R139). -/
def execSubnReg (x y : Reg) (s : State) : Host.Outcome State Fault Refusal :=
  arithThenFlag x (s.getV y - s.getV x) (notBorrowFlag (s.getV y) (s.getV x)) s

/-- 8xyE (R140): V[y] is not read. -/
def execShl (x _y : Reg) (s : State) : Host.Outcome State Fault Refusal :=
  shiftReg Config.shiftVfResult .left x s

/-- Cxkk (R145): the draw is a free value, and the counter moves on (log 3). -/
def execRnd (x : Reg) (kk : Byte) (s : State) : Host.Outcome State Fault Refusal :=
  .next { rndWith (s.draw kk) x kk s with draws := s.draws + 1 }

end Sys2Proof.Machine
end

