-- ==== Sys2Proof/Machine/ControlFlow.lean ====
section
/-! DEFINITION. The meanings of 40_control_flow.md. A meaning takes the state before the fetch advance
and advances pc itself, so that a fault can discard the advance with everything else (60_exceptions.md R201). -/

namespace Sys2Proof.Machine

/-- 00EE (R110). -/
def execRet (s : State) : Host.Outcome State Fault Refusal :=
  match s.pop with
  | none => raise .ret ⟨.stackUnderflow, none⟩ s
  | some (target, t) => .next (t.setPc target)

/-- 1nnn (R111). -/
def execJp (nnn : Addr12) (s : State) : Host.Outcome State Fault Refusal :=
  .next (s.advance.setPc (immAddr nnn))

/-- 2nnn (R112): the pushed address is the advanced pc. -/
def execCall (nnn : Addr12) (s : State) : Host.Outcome State Fault Refusal :=
  match s.push s.advance.pc with
  | none => raise (.call nnn) ⟨.stackOverflow, none⟩ s
  | some t => .next (t.setPc (immAddr nnn))

/-- 3xkk (R113). -/
def execSeImm (x : Reg) (kk : Byte) (s : State) : Host.Outcome State Fault Refusal :=
  .next (s.advance.skipIf (s.getV x == kk))

/-- 4xkk (R114). -/
def execSneImm (x : Reg) (kk : Byte) (s : State) : Host.Outcome State Fault Refusal :=
  .next (s.advance.skipIf (s.getV x != kk))

/-- 5xy0 (R115). -/
def execSeReg (x y : Reg) (s : State) : Host.Outcome State Fault Refusal :=
  .next (s.advance.skipIf (s.getV x == s.getV y))

/-- 9xy0 (R116): skip if not equal (90_conflicts.md C1). -/
def execSneReg (x y : Reg) (s : State) : Host.Outcome State Fault Refusal :=
  .next (s.advance.skipIf (s.getV x != s.getV y))

/-- Bnnn (R117): always V0, not masked to 12 bits. -/
def execJpV0 (nnn : Addr12) (s : State) : Host.Outcome State Fault Refusal :=
  .next (s.advance.setPc (zextByte (s.getV 0) + immAddr nnn))

/-- 0000 (R118). -/
def execNop (s : State) : Host.Outcome State Fault Refusal := .next s.advance

end Sys2Proof.Machine
end

