-- ==== Sys2Proof/Machine/Graphics.lean ====
section
/-! DEFINITION. The meanings of 43_graphics.md. -/

namespace Sys2Proof.Machine

/-- 00E0 (R170). -/
def execCls (s : State) : Host.Outcome State Fault Refusal :=
  .next { s.advance with fb := clearFb }

/-- Dxyn (R171): all sprite bytes are read first, the collision flag is written last. -/
def execDrw (x y : Reg) (n : BitVec 4) (s : State) : Host.Outcome State Fault Refusal :=
  match firstFault readFault (s.eas n.toNat) with
  | some c => raise (.drw x y n) c s
  | none =>
    let cv := drawRows (s.getV x).toNat (s.getV y).toNat (s.mem.readBytes (s.ea 0) n.toNat) (s.fb, false)
    .next ({ s.advance with fb := cv.1 }.setV VF (flagByte cv.2))

end Sys2Proof.Machine
end

