-- ==== Sys2Proof/Machine/MemoryIndex.lean ====
section
/-! DEFINITION. The meanings of 42_memory_index.md. Every address is checked before the first write (30_encoding.md R97). -/

namespace Sys2Proof.Machine

/-- The shape of Fx33 and Fx55: check all addresses, then store the bytes from I on. -/
def storeAtI (i : Instr) (bytes : List Byte) (s : State) : Host.Outcome State Fault Refusal :=
  match firstFault writeFault (s.eas bytes.length) with
  | some c => raise i c s
  | none => .next { s.advance with mem := s.mem.writeBytes (s.ea 0) bytes }

/-- I ← the exact sum mod 65536, VF by R151 and the parameter of R152. -/
def addIndex (clear : Bool) (x : Reg) (s : State) : State :=
  { s.advance.setV VF (indexFlag clear (s.index.toNat + (s.getV x).toNat) (s.getV VF)) with
    index := s.index + zextByte (s.getV x) }

/-- Annn (R150). -/
def execLdI (nnn : Addr12) (s : State) : Host.Outcome State Fault Refusal :=
  .next { s.advance with index := immAddr nnn }

/-- Fx1E (R151, R152). -/
def execAddI (x : Reg) (s : State) : Host.Outcome State Fault Refusal :=
  .next (addIndex Config.fx1eVfClear x s)

/-- Fx29 (R153): V[x] is not masked to a nibble. -/
def execLdF (x : Reg) (s : State) : Host.Outcome State Fault Refusal :=
  .next { s.advance with index := zextByte (s.getV x) * BitVec.ofNat 16 Config.glyphBytes }

/-- Fx33 (R154). -/
def execLdB (x : Reg) (s : State) : Host.Outcome State Fault Refusal :=
  storeAtI (.ldB x) (bcdDigits (s.getV x)) s

/-- Fx55 (R155): I is kept. -/
def execStoreRegs (x : Reg) (s : State) : Host.Outcome State Fault Refusal :=
  storeAtI (.storeRegs x) (s.regsUpTo x) s

/-- Fx65 (R156): all reads first; I is kept. -/
def execLoadRegs (x : Reg) (s : State) : Host.Outcome State Fault Refusal :=
  match firstFault readFault (s.eas (x.val + 1)) with
  | some c => raise (.loadRegs x) c s
  | none => .next { s.advance with v := setVFrom s.v 0 (s.mem.readBytes (s.ea 0) (x.val + 1)) }

end Sys2Proof.Machine
end

