-- ==== Sys2Proof/Machine/TimerInput.lean ====
section
/-! DEFINITION. The meanings of 44_timer_input.md. -/

namespace Sys2Proof.Machine

/-- The shape of Ex9E and ExA1: the latch of key V[x], or KeyIndexOutOfRange when V[x] > 15 (R180, R181). -/
def skipOnKey (i : Instr) (x : Reg) (pressed : Bool) (s : State) : Host.Outcome State Fault Refusal :=
  match keyIndex (s.getV x) with
  | none => raise i ⟨.keyIndexOutOfRange, some (.key (s.getV x))⟩ s
  | some k => .next (s.advance.skipIf (s.keys[k] == pressed))

/-- Ex9E (R180). -/
def execSkp (x : Reg) (s : State) : Host.Outcome State Fault Refusal := skipOnKey (.skp x) x true s

/-- ExA1 (R181). -/
def execSknp (x : Reg) (s : State) : Host.Outcome State Fault Refusal := skipOnKey (.sknp x) x false s

/-- Fx07 (R182). -/
def execLdVxDt (x : Reg) (s : State) : Host.Outcome State Fault Refusal := .next (s.advance.setV x s.dt)

/-- Fx15 (R183). -/
def execLdDtVx (x : Reg) (s : State) : Host.Outcome State Fault Refusal :=
  .next { s.advance with dt := s.getV x }

/-- Fx18 (R184). -/
def execLdStVx (x : Reg) (s : State) : Host.Outcome State Fault Refusal :=
  .next { s.advance with st := s.getV x }

/-- Fx0A (R185): with no key pressed, pc goes back to the instruction itself. -/
def execLdVxK (x : Reg) (s : State) : Host.Outcome State Fault Refusal :=
  match firstKey s.keys with
  | some k => .next (s.advance.setV x (keyByte k))
  | none => .next (s.advance.setPc (s.advance.pc - 2))

end Sys2Proof.Machine
end

