-- ==== Sys2Proof/Machine/Step.lean ====
section
/-! DEFINITION. One step is `execute_one_instruction` (30_encoding.md R92 to R95). -/

namespace Sys2Proof.Machine

/-- `ExecuteOne` (R93): no step from a Halted machine (R95); fetch, then decode, then execute, each of which may raise
a fault, which the machine takes with every effect discarded (60_exceptions.md R201, R204). -/
def step (s : State) : Host.Outcome State Fault Refusal :=
  match s.status with
  | .halted r => .fault (.halted r)
  | .running =>
    match s.fetch with
    | none => .next (s.takeFault .fetchOutOfBounds none none)
    | some w =>
      match decodeWord w with
      | none => .next (s.takeFault .decodeError (some w) none)
      | some i => exec i s

/-- The state with the word `w` stored where `step` fetches next, high byte first (20_memory.md R57). Where pc > 4094
there is no such place and nothing is stored. Log 9. -/
def State.withFetchWord (s : State) (nbits w : Nat) : State :=
  let word : Word := BitVec.ofNat 16 (w % 2 ^ nbits)
  if s.pc.toNat > Config.maxFetchPc then s
  else { s with mem := s.mem.writeBytes s.pc.toNat [highByte word, lowByte word] }

end Sys2Proof.Machine
end

