-- ==== Sys2Proof/Machine/HostOps.lean ====
section
/-! DEFINITION. The block interface: the eight atomic operations of 60_exceptions.md R230, `execute_one_instruction`
being `step`. The parameter FONT (10_state.md R23) is an argument: only `initialize` uses it. -/

namespace Sys2Proof.Machine

/-- The value of one field of a persisted record, of whatever type it came with (R226, R227). -/
inductive FieldValue where
  | bytes (l : List Byte)
  | words (l : List Word)
  | bools (l : List Bool)
  | num8 (b : Byte)
  | num16 (w : Word)
  | num32 (w : BitVec 32)
  | text (t : String)
  deriving DecidableEq, Repr

/-- A persisted record (R226): its eleven named fields, each there or not, and the names of any other fields. Log 10. -/
structure PersistedRecord where
  memory : Option FieldValue
  stack : Option FieldValue
  v : Option FieldValue
  keys : Option FieldValue
  screen : Option FieldValue
  i : Option FieldValue
  pc : Option FieldValue
  sp : Option FieldValue
  delayTimer : Option FieldValue
  soundTimer : Option FieldValue
  fps : Option FieldValue
  unknown : List String
  deriving DecidableEq, Repr

/-- What an operation returns to its caller (R230). -/
inductive Answer where
  /-- nothing to report, or ok -/
  | done
  /-- the executed instruction faulted, with this record -/
  | faulted (r : FaultRecord)
  /-- LoadError (70_reset_and_hazards.md R252) -/
  | loadError
  /-- the sound Boolean of `advance_timers` (R220) -/
  | sound (b : Bool)
  /-- the grid of `read_framebuffer` (R224) -/
  | screen (fb : Framebuffer)
  /-- the record of `snapshot` (R226) -/
  | record (r : PersistedRecord)
  /-- `restore` succeeded; the record's fps goes back to the host (R227) -/
  | restored (fps : BitVec 32)
  /-- RestoreError (R227) -/
  | restoreError
  deriving DecidableEq, Repr

/-- The eight operations with their inputs (R230). -/
inductive HostOp where
  /-- `initialize()` (70_reset_and_hazards.md R250) -/
  | initMachine
  | loadProgram (bytes : List Byte)
  | executeOne
  | advanceTimers
  | setKey (k : Option Nat) (pressed : Bool)
  | readFramebuffer
  | snapshot (fps : BitVec 32)
  | restore (r : PersistedRecord)
  deriving DecidableEq, Repr

/-- The state `initialize` constructs where FONT is `font` (10_state.md R37): `State.reset`, with `font` at 0..79. -/
def State.resetWith (font : Config.Font) : State := { State.reset with mem := Memory.ofBytes 0 font.toList }

/-- A new machine (70_reset_and_hazards.md R250). Only the model's own draw counter goes on (log 3). -/
def State.initialized (font : Config.Font) (s : State) : State := { State.resetWith font with draws := s.draws }

/-- The effect of `load_program` on a program that fits (R251). -/
def State.loaded (s : State) (bytes : List Byte) : State :=
  { s with mem := s.mem.writeBytes Config.progBase bytes }

/-- A timer after one tick: down by 1, floored at 0 (60_exceptions.md R220). -/
def tick (t : Byte) : Byte := if t.toNat > 0 then t - 1 else t

/-- The effect of `advance_timers` (R220). -/
def State.ticked (s : State) : State := { s with dt := tick s.dt, st := tick s.st }

/-- The effect of `set_key` (R223): nothing when the index is absent or above 15. -/
def State.withKey (s : State) (k : Option Nat) (pressed : Bool) : State :=
  match k with
  | some j => if h : j < 16 then { s with keys := s.keys.set j pressed } else s
  | none => s

/-- The `screen` field: row-major, index row·64 + col (R226). -/
def screenBits (fb : Framebuffer) : List Bool :=
  (List.range 2048).map fun k => pixel fb (Fin.ofNat 32 (k / 64)) (Fin.ofNat 64 (k % 64))

/-- The framebuffer of a row-major list of 2048 cells. -/
def screenOf (bits : List Bool) : Framebuffer :=
  Vector.ofFn fun row : Fin 32 => Vector.ofFn fun col : Fin 64 => bits.getD (row.val * 64 + col.val) false

/-- `snapshot` (R226). -/
def State.snapshotRecord (s : State) (fps : BitVec 32) : PersistedRecord where
  memory := some (.bytes (s.mem.readBytes 0 Config.memSize))
  stack := some (.words s.stack.toList)
  v := some (.bytes s.v.toList)
  keys := some (.bools s.keys.toList)
  screen := some (.bools (screenBits s.fb))
  i := some (.num16 s.index)
  pc := some (.num16 s.pc)
  sp := some (.num8 (BitVec.ofNat 8 s.sp.val))
  delayTimer := some (.num8 s.dt)
  soundTimer := some (.num8 s.st)
  fps := some (.num32 fps)
  unknown := []

/-- A list of exactly `n` elements as a vector. -/
def vectorOf {α : Type} (n : Nat) (l : List α) : Option (Vector α n) :=
  if h : l.length = n then some ⟨l.toArray, by simpa using h⟩ else none

/-- A field of `n` bytes; none when it is absent, of another type or of another length. -/
def bytesField (n : Nat) : Option FieldValue → Option (Vector Byte n)
  | some (.bytes l) => vectorOf n l
  | _ => none

/-- A field of `n` 16-bit words. -/
def wordsField (n : Nat) : Option FieldValue → Option (Vector Word n)
  | some (.words l) => vectorOf n l
  | _ => none

/-- A field of `n` Booleans. -/
def boolsField (n : Nat) : Option FieldValue → Option (Vector Bool n)
  | some (.bools l) => vectorOf n l
  | _ => none

/-- An 8-bit field. -/
def num8Field : Option FieldValue → Option Byte
  | some (.num8 b) => some b
  | _ => none

/-- A 16-bit field. -/
def num16Field : Option FieldValue → Option Word
  | some (.num16 w) => some w
  | _ => none

/-- A 32-bit field. -/
def num32Field : Option FieldValue → Option (BitVec 32)
  | some (.num32 w) => some w
  | _ => none

/-- A stack pointer, none above 16 (R227). -/
def spOf (b : Byte) : Option (Fin 17) := if h : b.toNat < 17 then some ⟨b.toNat, h⟩ else none

/-- The state a record describes, status Running, with its fps; none where R227 rejects the record. The draw counter
is the model's own and goes on (log 3). -/
def PersistedRecord.toState (r : PersistedRecord) (draws : Nat) : Option (State × BitVec 32) := do
  guard (r.unknown = [])
  let memory ← bytesField Config.memSize r.memory
  let stack ← wordsField 16 r.stack
  let v ← bytesField 16 r.v
  let keys ← boolsField 16 r.keys
  let screen ← boolsField 2048 r.screen
  let index ← num16Field r.i
  let pc ← num16Field r.pc
  let sp ← (num8Field r.sp).bind spOf
  let dt ← num8Field r.delayTimer
  let st ← num8Field r.soundTimer
  let fps ← num32Field r.fps
  some ({ v := v, pc := pc, index := index, stack := stack, sp := sp, dt := dt, st := st, keys := keys,
          fb := screenOf screen.toList, mem := Memory.ofBytes 0 memory.toList, status := .running, draws := draws }, fps)

/-- What `execute_one_instruction` reports about the state it left (R230). -/
def reportOf (t : State) : Answer :=
  match t.status with
  | .running => .done
  | .halted r => .faulted r

/-- An operation on a Running machine whose FONT is `font`. -/
def runningOp (font : Config.Font) (op : HostOp) (s : State) : Host.Outcome (State × Answer) Fault Refusal :=
  match op with
  | .initMachine => .next (s.initialized font, .done)
  | .loadProgram bytes =>
    if bytes.length > Config.maxProg then .next (s, .loadError) else .next (s.loaded bytes, .done)
  | .executeOne =>
    match step s with
    | .next t => .next (t, reportOf t)
    | .fault f => .fault f
    | .refused r => .refused r
  | .advanceTimers => .next (s.ticked, .sound (soundFlag Config.soundSample s.st s.ticked.st))
  | .setKey k pressed => .next (s.withKey k pressed, .done)
  | .readFramebuffer => .next (s, .screen s.fb)
  | .snapshot fps => .next (s, .record (s.snapshotRecord fps))
  | .restore r =>
    match r.toState s.draws with
    | none => .next (s, .restoreError)
    | some (t, fps) => .next (t, .restored fps)

/-- One host operation (R230) on a machine whose FONT is `font`. From a Halted machine only `initialize` has a step (R202). -/
def hostStep (font : Config.Font) (op : HostOp) (s : State) : Host.Outcome (State × Answer) Fault Refusal :=
  match s.status with
  | .running => runningOp font op s
  | .halted r =>
    match op with
    | .initMachine => .next (s.initialized font, .done)
    | _ => .fault (.halted r)

end Sys2Proof.Machine
end

