-- ==== Sys2Proof/Safety.lean ====
section
/-! DEFINITION. The terms claims use: what counts as running safely, the invariants of 10_state.md R39, frames. -/

namespace Sys2Proof.Machine

/-- A machine that has not faulted (10_state.md R33). -/
def State.Running (s : State) : Prop := s.status = .running

/-- `memory[0..79] = FONT` (R39). -/
def State.FontIntact (font : Config.Font) (s : State) : Prop := ∀ a : Fin 80, s.mem.read a.val = font[a]

/-- The invariant: the canonical memory, which is the model's own form (log 5), and, per R39, FONT at 0..79. (`sp ≤ 16` is
in sp's type, log 6.) -/
def State.Inv (font : Config.Font) (s : State) : Prop := s.mem.wf = true ∧ s.FontIntact font

/-- The components of State other than the V registers. -/
inductive Part where
  | pc
  | index
  | stack
  | sp
  | dt
  | st
  | keys
  | fb
  | memory
  | status
  | draws
  deriving DecidableEq, Repr

/-- Component `p` of `t` is as in `s`; memory, byte by byte. -/
def Part.Same (p : Part) (s t : State) : Prop :=
  match p with
  | .pc => t.pc = s.pc
  | .index => t.index = s.index
  | .stack => t.stack = s.stack
  | .sp => t.sp = s.sp
  | .dt => t.dt = s.dt
  | .st => t.st = s.st
  | .keys => t.keys = s.keys
  | .fb => t.fb = s.fb
  | .memory => ∀ a, t.mem.read a = s.mem.read a
  | .status => t.status = s.status
  | .draws => t.draws = s.draws

/-- Frame (30_encoding.md R96): from `s` to `t` only the components `ps` and the V registers `rs` may have changed. -/
def OnlyChanges (ps : List Part) (rs : List Reg) (s t : State) : Prop :=
  (∀ p, p ∉ ps → p.Same s t) ∧ (∀ r, r ∉ rs → t.getV r = s.getV r)

/-- `t` is `s` halted by fault `reason` with this word and info, and everything else, pc included, as before
(60_exceptions.md R201). -/
def HaltedFrom (s : State) (reason : FaultReason) (word : Option Word) (info : Option FaultInfo) (t : State) : Prop :=
  t.status = .halted ⟨reason, s.pc, word, info⟩ ∧ OnlyChanges [.status] [] s t

/-- A set sprite bit of Dxyn lands on this pixel (43_graphics.md R171, R172): bit 7 of a row byte is column 0. -/
def SpriteCovers (s : State) (x y : Reg) (n : BitVec 4) (row : Fin 32) (col : Fin 64) : Prop :=
  ∃ r c : Nat, r < n.toNat ∧ c < 8 ∧ row.val = ((s.getV y).toNat + r) % 32 ∧ col.val = ((s.getV x).toNat + c) % 64 ∧
    (s.mem.read (s.index.toNat + r)).getLsbD (7 - c) = true

/-- The fetched word, as a record keeps it, and what it decodes to. -/
def FetchesAs (s : State) (r : FaultRecord) (i : Option Instr) : Prop :=
  ∃ w, s.fetch = some w ∧ r.word = some w ∧ decodeWord w = i

/-- The table of 60_exceptions.md R200, with the addresses of R205: when a Running machine's cycle raises this fault
record, and with what info. -/
def RaisesWhen (s : State) (r : FaultRecord) : Prop :=
  r.pc0 = s.pc ∧
  match r.reason with
  | .fetchOutOfBounds => s.pc.toNat > 4094 ∧ r.word = none ∧ r.info = none
  | .decodeError => FetchesAs s r none ∧ r.info = none
  | .stackOverflow => (∃ nnn, FetchesAs s r (some (.call nnn))) ∧ s.sp.val = 16 ∧ r.info = none
  | .stackUnderflow => FetchesAs s r (some .ret) ∧ s.sp.val = 0 ∧ r.info = none
  | .keyIndexOutOfRange =>
    ∃ x, (FetchesAs s r (some (.skp x)) ∨ FetchesAs s r (some (.sknp x))) ∧ (s.getV x).toNat > 15 ∧
      r.info = some (.key (s.getV x))
  | .fontWrite =>
    (∃ x, FetchesAs s r (some (.ldB x)) ∨ FetchesAs s r (some (.storeRegs x))) ∧ s.index.toNat ≤ 79 ∧
      r.info = some (.address s.index.toNat)
  | .memoryOutOfBounds =>
    r.info = some (.address (max s.index.toNat 4096)) ∧
    ((∃ x y n, FetchesAs s r (some (.drw x y n)) ∧ 1 ≤ n.toNat ∧ s.index.toNat + (n.toNat - 1) > 4095) ∨
     (∃ x, FetchesAs s r (some (.ldB x)) ∧ s.index.toNat > 79 ∧ s.index.toNat + 2 > 4095) ∨
     (∃ x : Reg, FetchesAs s r (some (.storeRegs x)) ∧ s.index.toNat > 79 ∧ s.index.toNat + x.val > 4095) ∨
     (∃ x : Reg, FetchesAs s r (some (.loadRegs x)) ∧ s.index.toNat + x.val > 4095))

/-- V0..V[x]. -/
def regsTo (x : Reg) : List Reg := (List.finRange 16).filter fun r => decide (r ≤ x)

/-- The V registers an instruction reads, from the access matrix of 10_state.md R36. -/
def readsV : Instr → List Reg
  | .seImm x _ | .sneImm x _ | .addImm x _ | .shr x _ | .shl x _ | .skp x | .sknp x | .ldDtVx x | .ldStVx x | .addI x
  | .ldF x | .ldB x => [x]
  | .seReg x y | .sneReg x y | .orReg x y | .andReg x y | .xorReg x y | .addReg x y | .subReg x y | .subnReg x y
  | .drw x y _ => [x, y]
  | .ldReg _ y => [y]
  | .jpV0 _ => [0]
  | .storeRegs x => regsTo x
  | .cls | .ret | .jp _ | .call _ | .ldImm _ _ | .ldI _ | .rnd _ _ | .ldVxDt _ | .ldVxK _ | .loadRegs _ | .nop => []

/-- The V registers an instruction may write, from the access matrix of R36. -/
def writesV : Instr → List Reg
  | .ldImm x _ | .addImm x _ | .ldReg x _ | .orReg x _ | .andReg x _ | .xorReg x _ | .rnd x _ | .ldVxDt x
  | .ldVxK x => [x]
  | .addReg x _ | .subReg x _ | .subnReg x _ | .shr x _ | .shl x _ => [x, VF]
  | .drw _ _ _ | .addI _ => [VF]
  | .loadRegs x => regsTo x
  | .cls | .ret | .jp _ | .call _ | .seImm _ _ | .sneImm _ _ | .seReg _ _ | .sneReg _ _ | .ldI _ | .jpV0 _ | .skp _
  | .sknp _ | .ldDtVx _ | .ldStVx _ | .ldF _ | .ldB _ | .storeRegs _ | .nop => []

/-- The records `restore` accepts (60_exceptions.md R227): no unknown field, every field there with its type and length,
and sp ≤ 16. -/
def RecordOk (r : PersistedRecord) : Prop :=
  r.unknown = [] ∧ (∃ l, r.memory = some (.bytes l) ∧ l.length = 4096) ∧ (∃ l, r.stack = some (.words l) ∧ l.length = 16) ∧
  (∃ l, r.v = some (.bytes l) ∧ l.length = 16) ∧ (∃ l, r.keys = some (.bools l) ∧ l.length = 16) ∧
  (∃ l, r.screen = some (.bools l) ∧ l.length = 2048) ∧ (∃ w, r.i = some (.num16 w)) ∧ (∃ w, r.pc = some (.num16 w)) ∧
  (∃ b, r.sp = some (.num8 b) ∧ b.toNat ≤ 16) ∧ (∃ b, r.delayTimer = some (.num8 b)) ∧
  (∃ b, r.soundTimer = some (.num8 b)) ∧ (∃ w, r.fps = some (.num32 w))

/-- pc and every stack entry stay far below the 16-bit wrap (40_control_flow.md R119, 10_state.md R25). -/
def State.PcBounded (s : State) : Prop := s.pc.toNat ≤ 0x10FE ∧ ∀ j : Fin 16, s.stack[j].toNat ≤ 4096

/-- The states reached from reset by host operations, in any order (60_exceptions.md R233). -/
inductive Reachable (font : Config.Font) : State → Prop where
  | reset : Reachable font (State.resetWith font)
  | op {s t : State} {a : Answer} (o : HostOp) (h : Reachable font s) (hs : hostStep font o s = .next (t, a)) :
      Reachable font t

/-- A byte at address `a` after a store of the `n` values `value` from I on: the value stored there, or what was there
before (20_memory.md R67). -/
def AfterStore (s : State) (n : Nat) (value : Nat → Nat) (a : Nat) (b : Byte) : Prop :=
  (∀ k, k < n → s.ea k = a → b.toNat = value k) ∧ (a < s.ea 0 ∨ s.ea n ≤ a → b = s.mem.read a)

/-! ### The host's calls, and the fairness of R262 (70_reset_and_hazards.md) -/

/-- A host that goes on for ever: its calls, in order. -/
abbrev HostCalls := Nat → HostOp

/-- The state after the first `n` calls; none from where a call had no step. -/
def afterCalls (font : Config.Font) (h : HostCalls) (s : State) : Nat → Option State
  | 0 => some s
  | n + 1 =>
    match afterCalls font h s n with
    | none => none
    | some t =>
      match hostStep font (h n) t with
      | .next (u, _) => some u
      | _ => none

/-- The host is in the driver loop of R253: it has initialized and loaded, and replaces neither machine nor program. -/
def HostCalls.InDriverLoop (h : HostCalls) : Prop :=
  ∀ n, h n ≠ .initMachine ∧ (∀ bytes, h n ≠ .loadProgram bytes) ∧ ∀ r, h n ≠ .restore r

/-- The fairness a key-wait needs (R262): again and again, a `set_key(k, true)` followed by an `execute_one_instruction`
while the key is still held. Log 11. -/
def HostCalls.PressesThenExecutes (h : HostCalls) : Prop :=
  ∀ n, ∃ m e k, n ≤ m ∧ m < e ∧ k < 16 ∧ h m = .setKey (some k) true ∧ h e = .executeOne ∧
    ∀ j, m < j → j < e → h j ≠ .setKey (some k) false

/-- The fairness DT needs to run out (R262): again and again, an `advance_timers`. Log 11. -/
def HostCalls.Ticks (h : HostCalls) : Prop := ∀ n, ∃ m, n ≤ m ∧ h m = .advanceTimers

/-- What a delay loop needs besides, to see that DT has run out (R262): again and again, an execution. Log 11. -/
def HostCalls.Executes (h : HostCalls) : Prop := ∀ n, ∃ m, n ≤ m ∧ h m = .executeOne

/-- A run of `k` steps that ends without a fault (70_reset_and_hazards.md R261). -/
def SafeRun (k : Nat) (s : State) : Prop := ∃ t : State, core.run k s = .next t ∧ t.Running

end Sys2Proof.Machine
end

