-- ==== Sys2Proof/Certificates/Slice0/Obligations.lean ====
section
/-! DEFINITION. The statements for the provers, each from a rule of spec/. In the frames, `OnlyChanges ps rs s t` says
that nothing but the components `ps` and the V registers `rs` may differ, memory byte by byte. -/

open Sys2Proof Sys2Proof.Machine

/-! ### Encoding (30_encoding.md) -/

/-- R81, R83, R84: a word decodes to an instruction exactly when it is that instruction's encoding, for every
instruction with every operand; and from bytes, whatever follows them. -/
def Obligations.DecodeAndEncodeAreInverse : Prop :=
  (∀ (w : Word) (i : Instr), decodeWord w = some i ↔ encode i = w) ∧
  (∀ (i : Instr) (rest : List Byte), decode (encodeBytes i ++ rest) = .ok (i, rest))

/-- R85, against the decoder, which is written from R84: the legal words are exactly those R85 allows; and the `y`
nibble of 8xy6 and 8xyE has no effect. -/
def Obligations.LegalWordsAreThoseOfTheConstraints : Prop :=
  (∀ w : Word, (decodeWord w).isSome = legalWord w) ∧
  (∀ (x y y' : Reg) (s : State),
    exec (.shr x y) s = exec (.shr x y') s ∧ exec (.shl x y) s = exec (.shl x y') s)

/-- R83, R84: the match and mask columns decide decoding. An instruction's word matches its own row and no other, and
a word is illegal exactly when no row matches. -/
def Obligations.MatchAndMaskDecideDecoding : Prop :=
  maskRows.length = 35 ∧
  (∀ (w : Word) (i : Instr), decodeWord w = some i → ∀ j : Fin 35, ∀ row, maskRows[j.val]? = some row →
    (w &&& row.2 = row.1 ↔ j = i.rowIndex)) ∧
  (∀ w : Word, decodeWord w = none ↔ ∀ row ∈ maskRows, w &&& row.2 ≠ row.1)

/-- Words of 95_test_vectors.md, one of each family, decode to what they stand for. -/
def Obligations.SpecWordsDecodeAsListed : Prop :=
  decodeWord 0x8014 = some (.addReg 0 1) ∧ decodeWord 0x2300 = some (.call 0x300) ∧
  decodeWord 0x3342 = some (.seImm 3 0x42) ∧ decodeWord 0xF51E = some (.addI 5) ∧
  decodeWord 0xD125 = some (.drw 1 2 5) ∧ decodeWord 0xE49E = some (.skp 4) ∧ decodeWord 0x0123 = none

/-! ### The cycle and its faults (30_encoding.md, 60_exceptions.md) -/

/-- R93, R94: on a Running machine with pc ≤ 4094 whose two bytes at pc decode to `i`, a step is the execution of `i`
from that state. Each meaning advances pc by 2 itself, so nothing stands around it. -/
def Obligations.StepRunsTheDecodedInstruction : Prop :=
  ∀ (s : State) (i : Instr), s.Running → s.pc.toNat ≤ 4094 →
    decodeWord (joinBytes (s.mem.read s.pc.toNat) (s.mem.read (s.pc.toNat + 1))) = some i → step s = exec i s

/-- R57, R201: a fetch with pc > 4094 halts with FetchOutOfBounds, no word, everything else as before. -/
def Obligations.FetchPastTheEndHalts : Prop :=
  ∀ s : State, s.Running → s.pc.toNat > 4094 → ∃ t, step s = .next t ∧ HaltedFrom s .fetchOutOfBounds none none t

/-- R88, R201: an illegal word halts with DecodeError and that word, everything else as before. -/
def Obligations.IllegalWordHalts : Prop :=
  ∀ s : State, s.Running → s.pc.toNat ≤ 4094 →
    legalWord (joinBytes (s.mem.read s.pc.toNat) (s.mem.read (s.pc.toNat + 1))) = false →
    ∃ t, step s = .next t ∧
      HaltedFrom s .decodeError (some (joinBytes (s.mem.read s.pc.toNat) (s.mem.read (s.pc.toNat + 1)))) none t

/-- R201: whenever a cycle of a Running machine ends Halted, the whole state but the status is as before the cycle, pc
included, and the record's pc0 is the pc of that cycle. -/
def Obligations.FaultsArePrecise : Prop :=
  ∀ (s t : State) (r : FaultRecord), s.Running → step s = .next t → t.status = .halted r →
    r.pc0 = s.pc ∧ t = { s with status := .halted r }

/-- R200, R204, R205: a cycle of a Running machine raises a fault record exactly when the table says so, with the word
and info it says, and the seven codes are 1 to 7. The addresses are R205's, which the spec infers from R55 and R56. -/
def Obligations.FaultsAreExactlyThoseOfTheTable : Prop :=
  (∀ (s : State) (r : FaultRecord), s.Running → ((∃ t, step s = .next t ∧ t.status = .halted r) ↔ RaisesWhen s r)) ∧
  [FaultReason.decodeError, .stackOverflow, .stackUnderflow, .fetchOutOfBounds, .memoryOutOfBounds, .fontWrite,
    .keyIndexOutOfRange].map FaultReason.code = [1, 2, 3, 4, 5, 6, 7]

/-- R202, R95: a Halted machine has no step and no operation but `initialize`, which builds a new machine, with the
FONT of its configuration. That "no step" is the outcome `fault` is log 1; that the model's own draw counter goes on
is log 3. -/
def Obligations.HaltedIsAbsorbing : Prop :=
  ∀ (font : Config.Font) (s : State) (r : FaultRecord), s.status = .halted r →
    step s = .fault (.halted r) ∧
    (∀ op : HostOp, op ≠ .initMachine → hostStep font op s = .fault (.halted r)) ∧
    ∃ t, hostStep font .initMachine s = .next (t, .done) ∧ OnlyChanges [.draws] [] (State.resetWith font) t

/-- No instruction stops the model: whatever the state, `exec` answers a next state. (The model's choice of taking
faults as next states, log 1, is in this.) -/
def Obligations.EveryInstructionAnswersNext : Prop :=
  ∀ (i : Instr) (s : State), ∃ t, exec i s = .next t

/-! ### Reset and invariants (10_state.md, 70_reset_and_hazards.md) -/

/-- R37, R250: every component's reset value, for every FONT, and `initialize` gives them from any state (the model's
own draw counter apart, log 3). The model's reset state is that of the default FONT, whose bytes R23 lists from
general knowledge (log 4). -/
def Obligations.ResetAndInitializeValues : Prop :=
  (∀ (font : Config.Font) (s : State), ∃ t, hostStep font .initMachine s = .next (t, .done) ∧
    (∀ x : Reg, t.getV x = 0) ∧ t.pc = 512 ∧ t.index = 0 ∧ (∀ j : Fin 16, t.stack[j] = 0) ∧ t.sp.val = 0 ∧ t.dt = 0 ∧
    t.st = 0 ∧ (∀ k : Fin 16, t.keys[k] = false) ∧ (∀ row col, pixel t.fb row col = false) ∧
    (∀ a : Fin 80, t.mem.read a.val = font[a]) ∧ (∀ a, 80 ≤ a → a < 4096 → t.mem.read a = 0) ∧ t.status = .running ∧
    OnlyChanges [.draws] [] (State.resetWith font) t) ∧
  State.resetWith defaultFont = State.reset ∧
  (List.range 16).map (fun g => State.reset.mem.readBytes (5 * g) 5) =
    [[0xF0, 0x90, 0x90, 0x90, 0xF0], [0x20, 0x60, 0x20, 0x20, 0x70], [0xF0, 0x10, 0xF0, 0x80, 0xF0],
     [0xF0, 0x10, 0xF0, 0x10, 0xF0], [0x90, 0x90, 0xF0, 0x10, 0x10], [0xF0, 0x80, 0xF0, 0x10, 0xF0],
     [0xF0, 0x80, 0xF0, 0x90, 0xF0], [0xF0, 0x10, 0x20, 0x40, 0x40], [0xF0, 0x90, 0xF0, 0x90, 0xF0],
     [0xF0, 0x90, 0xF0, 0x10, 0xF0], [0xF0, 0x90, 0xF0, 0x90, 0x90], [0xE0, 0x90, 0xE0, 0x90, 0xE0],
     [0xF0, 0x80, 0x80, 0x80, 0xF0], [0xE0, 0x90, 0x90, 0x90, 0xE0], [0xF0, 0x80, 0xF0, 0x80, 0xF0],
     [0xF0, 0x80, 0xF0, 0x80, 0x80]]

/-- The reset state, with any FONT, meets the invariants the steps keep: R39's font clause, the bound of R119 (the
spec's inference from R110 to R118), and the canonical memory, which is the model's own form (log 5). -/
def Obligations.ResetMeetsTheInvariants : Prop :=
  ∀ font : Config.Font, (State.resetWith font).Inv font ∧ (State.resetWith font).PcBounded

/-- Every step keeps FONT at 0..79 (R39, the spec's inference from R28, R37 and R56), and no step changes a byte
there, whatever a `restore` has put there (R52). Every step keeps the memory canonical: that clause is about the
model's own form of memory (log 5), no rule of the spec. -/
def Obligations.StepKeepsMemoryCanonicalAndFont : Prop :=
  ∀ (font : Config.Font) (s t : State), step s = .next t →
    (s.Inv font → t.Inv font) ∧ ∀ a, a < 80 → t.mem.read a = s.mem.read a

/-- R39 (the spec's inference from R28, R37 and R56): every host operation keeps FONT at 0..79, unless a `restore`
supplied other font bytes, and sp ≤ 16, which holds by the type the model gives sp (log 6). That it keeps the memory
canonical is about the model's own form of memory (log 5), no rule of the spec. -/
def Obligations.OperationsKeepStackPointerAndFont : Prop :=
  ∀ (font : Config.Font) (op : HostOp) (s t : State) (a : Answer), s.mem.wf = true →
    hostStep font op s = .next (t, a) →
    t.sp.val ≤ 16 ∧ t.mem.wf = true ∧
    (s.FontIntact font → (∀ r l, op = .restore r → r.memory = some (.bytes l) → l.take 80 = font.toList) →
      t.FontIntact font)

/-- R119 (the spec's inference from R110 to R118), R25: no step can reach the 16-bit wrap of pc: pc stays at most
0x10FE and every stack entry at most 4096. -/
def Obligations.StepKeepsPcBounded : Prop :=
  ∀ s t : State, s.PcBounded → step s = .next t → t.PcBounded

/-! ### Who may change what (10_state.md R24 to R36) -/

/-- R36: the access matrix. An instruction changes no V register outside its "writes" column, and a V register outside
its "reads" column has no influence on anything but itself. The second clause compares two runs and presumes the same
draw of Cxkk in both: in the model the draw is a function of its own draw counter and kk (log 3, DESIGN CHOICE). -/
def Obligations.RegisterAccessMatrix : Prop :=
  (∀ (i : Instr) (s t : State) (r : Reg), exec i s = .next t → r ∉ writesV i → t.getV r = s.getV r) ∧
  (∀ (i : Instr) (s : State) (r : Reg) (b : Byte), r ∉ readsV i →
    ∃ t u, exec i s = .next t ∧ exec i (s.setV r b) = .next u ∧ OnlyChanges [] [r] t u)

/-- R222: instructions never change DT or ST, except Fx15 and Fx18, and each of these only its own timer. -/
def Obligations.TimersChangeOnlyByTheirInstructions : Prop :=
  ∀ (i : Instr) (s t : State), exec i s = .next t →
    ((∀ x, i ≠ .ldDtVx x) → t.dt = s.dt) ∧ ((∀ x, i ≠ .ldStVx x) → t.st = s.st)

/-- R31, R32: no instruction changes a key latch; the framebuffer is changed by 00E0 and Dxyn only. -/
def Obligations.KeysAndFramebufferWriters : Prop :=
  ∀ (i : Instr) (s t : State), exec i s = .next t →
    t.keys = s.keys ∧ (i ≠ .cls → (∀ x y n, i ≠ .drw x y n) → t.fb = s.fb)

/-- R26, R27, R28, and the write column of R60: I is written by Annn, Fx1E and Fx29 only, a stack entry by 2nnn only
and only the one at sp, sp by 2nnn and 00EE only, memory by Fx33 and Fx55 only. -/
def Obligations.IndexStackAndMemoryWriters : Prop :=
  ∀ (i : Instr) (s t : State), exec i s = .next t →
    ((∀ n, i ≠ .ldI n) → (∀ x, i ≠ .addI x) → (∀ x, i ≠ .ldF x) → t.index = s.index) ∧
    ((∀ n, i ≠ .call n) → t.stack = s.stack) ∧
    (∀ j : Fin 16, j.val ≠ s.sp.val → t.stack[j] = s.stack[j]) ∧
    ((∀ n, i ≠ .call n) → i ≠ .ret → t.sp = s.sp) ∧
    ((∀ x, i ≠ .ldB x) → (∀ x, i ≠ .storeRegs x) → ∀ a, t.mem.read a = s.mem.read a)

/-! ### Control flow (40_control_flow.md) -/

/-- R110: 00EE pops the return address into pc, the entry kept; with sp = 0 it raises StackUnderflow. -/
def Obligations.ReturnPopsOrUnderflows : Prop :=
  ∀ s : State,
    (s.sp.val ≠ 0 → ∃ t, exec .ret s = .next t ∧ s.stack[s.sp.val - 1]? = some t.pc ∧ t.sp.val + 1 = s.sp.val ∧
      OnlyChanges [.pc, .sp] [] s t) ∧
    (s.sp.val = 0 → ∃ t, exec .ret s = .next t ∧ HaltedFrom s .stackUnderflow (some 0x00EE) none t)

/-- R112: 2nnn pushes the address of the next instruction and jumps; with sp = 16 it raises StackOverflow. -/
def Obligations.CallPushesOrOverflows : Prop :=
  ∀ (s : State) (nnn : Addr12),
    (s.sp.val ≠ 16 → ∃ t, exec (.call nnn) s = .next t ∧ t.stack[s.sp.val]? = some (s.pc + 2) ∧
      (∀ j : Fin 16, j.val ≠ s.sp.val → t.stack[j] = s.stack[j]) ∧ t.sp.val = s.sp.val + 1 ∧
      t.pc.toNat = nnn.toNat ∧ OnlyChanges [.pc, .sp, .stack] [] s t) ∧
    (s.sp.val = 16 → ∃ t, exec (.call nnn) s = .next t ∧
      HaltedFrom s .stackOverflow (some (encode (.call nnn))) none t)

/-- R111, R117, R118: 1nnn jumps to nnn, Bnnn to V0 + nnn without a mask, 0000 only advances; nothing else changes. -/
def Obligations.JumpsAndNoOperation : Prop :=
  ∀ (s : State) (nnn : Addr12),
    (∃ t, exec (.jp nnn) s = .next t ∧ t.pc.toNat = nnn.toNat ∧ OnlyChanges [.pc] [] s t) ∧
    (∃ t, exec (.jpV0 nnn) s = .next t ∧ t.pc.toNat = (s.getV 0).toNat + nnn.toNat ∧ OnlyChanges [.pc] [] s t) ∧
    (∃ t, exec .nop s = .next t ∧ t.pc = s.pc + 2 ∧ OnlyChanges [.pc] [] s t)

/-- R113 to R116: the four compare-and-skip instructions leave pc two words on when their condition holds and one word
on when it does not, and change nothing else. -/
def Obligations.CompareAndSkip : Prop :=
  ∀ (s : State) (x y : Reg) (kk : Byte),
    (∃ t, exec (.seImm x kk) s = .next t ∧ t.pc = s.pc + (if s.getV x = kk then 4 else 2) ∧ OnlyChanges [.pc] [] s t) ∧
    (∃ t, exec (.sneImm x kk) s = .next t ∧ t.pc = s.pc + (if s.getV x = kk then 2 else 4) ∧ OnlyChanges [.pc] [] s t) ∧
    (∃ t, exec (.seReg x y) s = .next t ∧ t.pc = s.pc + (if s.getV x = s.getV y then 4 else 2) ∧
      OnlyChanges [.pc] [] s t) ∧
    (∃ t, exec (.sneReg x y) s = .next t ∧ t.pc = s.pc + (if s.getV x = s.getV y then 2 else 4) ∧
      OnlyChanges [.pc] [] s t)

/-- R120: a call, then anything that leaves sp and the pushed entry as the call left them, then a return: pc is the
address after the call, and sp is as before it. -/
def Obligations.CallThenReturnComesBack : Prop :=
  ∀ (s t u : State) (nnn : Addr12), s.sp.val ≠ 16 → exec (.call nnn) s = .next t →
    u.sp = t.sp → u.stack[s.sp.val]? = t.stack[s.sp.val]? →
    ∃ v, exec .ret u = .next v ∧ v.pc = s.pc + 2 ∧ v.sp = s.sp

/-! ### Register arithmetic (41_arithmetic.md) -/

/-- R130 to R132: 6xkk, 7xkk (mod 256, no flag) and 8xy0. -/
def Obligations.LoadAddAndCopyRegister : Prop :=
  ∀ (s : State) (x y : Reg) (kk : Byte),
    (∃ t, exec (.ldImm x kk) s = .next t ∧ t.getV x = kk ∧ t.pc = s.pc + 2 ∧ OnlyChanges [.pc] [x] s t) ∧
    (∃ t, exec (.addImm x kk) s = .next t ∧ (t.getV x).toNat = ((s.getV x).toNat + kk.toNat) % 256 ∧
      t.pc = s.pc + 2 ∧ OnlyChanges [.pc] [x] s t) ∧
    (∃ t, exec (.ldReg x y) s = .next t ∧ t.getV x = s.getV y ∧ t.pc = s.pc + 2 ∧ OnlyChanges [.pc] [x] s t)

/-- R133 to R135: 8xy1, 8xy2, 8xy3 bit by bit, VF kept. -/
def Obligations.LogicIsBitwise : Prop :=
  ∀ (s : State) (x y : Reg),
    (∃ t, exec (.orReg x y) s = .next t ∧ t.pc = s.pc + 2 ∧ OnlyChanges [.pc] [x] s t ∧
      ∀ k < 8, (t.getV x).getLsbD k = ((s.getV x).getLsbD k || (s.getV y).getLsbD k)) ∧
    (∃ t, exec (.andReg x y) s = .next t ∧ t.pc = s.pc + 2 ∧ OnlyChanges [.pc] [x] s t ∧
      ∀ k < 8, (t.getV x).getLsbD k = ((s.getV x).getLsbD k && (s.getV y).getLsbD k)) ∧
    (∃ t, exec (.xorReg x y) s = .next t ∧ t.pc = s.pc + 2 ∧ OnlyChanges [.pc] [x] s t ∧
      ∀ k < 8, (t.getV x).getLsbD k = xor ((s.getV x).getLsbD k) ((s.getV y).getLsbD k))

/-- R136, R142: 8xy4 leaves the sum mod 256 in V[x] and the carry in VF; when x = F the carry stands. -/
def Obligations.AddLeavesSumAndCarry : Prop :=
  ∀ (s : State) (x y : Reg),
    ∃ t, exec (.addReg x y) s = .next t ∧
      (x ≠ VF → (t.getV x).toNat = ((s.getV x).toNat + (s.getV y).toNat) % 256) ∧
      (t.getV VF).toNat = (if (s.getV x).toNat + (s.getV y).toNat > 255 then 1 else 0) ∧
      t.pc = s.pc + 2 ∧ OnlyChanges [.pc] [x, VF] s t

/-- R137, R139, R142: 8xy5 and 8xy7 leave the difference mod 256 in V[x] and NOT borrow in VF; when x = F the flag
stands. -/
def Obligations.SubtractLeavesDifferenceAndNotBorrow : Prop :=
  ∀ (s : State) (x y : Reg),
    (∃ t, exec (.subReg x y) s = .next t ∧
      (x ≠ VF → (t.getV x).toNat = (256 + (s.getV x).toNat - (s.getV y).toNat) % 256) ∧
      (t.getV VF).toNat = (if (s.getV x).toNat < (s.getV y).toNat then 0 else 1) ∧
      t.pc = s.pc + 2 ∧ OnlyChanges [.pc] [x, VF] s t) ∧
    (∃ t, exec (.subnReg x y) s = .next t ∧
      (x ≠ VF → (t.getV x).toNat = (256 + (s.getV y).toNat - (s.getV x).toNat) % 256) ∧
      (t.getV VF).toNat = (if (s.getV y).toNat < (s.getV x).toNat then 0 else 1) ∧
      t.pc = s.pc + 2 ∧ OnlyChanges [.pc] [x, VF] s t)

/-- R138, R140, R141: 8xy6 and 8xyE halve and double V[x] and leave the bit shifted out in VF; when x = F, VF is what
`SHIFT_VF_RESULT` says, whatever that is. -/
def Obligations.ShiftsLeaveResultAndBitShiftedOut : Prop :=
  ∀ (s : State) (x y : Reg),
    (∃ t, exec (.shr x y) s = .next t ∧ t.pc = s.pc + 2 ∧ OnlyChanges [.pc] [x, VF] s t ∧
      (x ≠ VF → (t.getV x).toNat = (s.getV x).toNat / 2 ∧ (t.getV VF).toNat = (s.getV x).toNat % 2) ∧
      (x = VF → (t.getV VF).toNat = match Config.shiftVfResult with
        | .flag => (s.getV VF).toNat % 2
        | .seqResult => 0
        | .capturedResult => (s.getV VF).toNat / 2)) ∧
    (∃ t, exec (.shl x y) s = .next t ∧ t.pc = s.pc + 2 ∧ OnlyChanges [.pc] [x, VF] s t ∧
      (x ≠ VF → (t.getV x).toNat = (s.getV x).toNat * 2 % 256 ∧ (t.getV VF).toNat = (s.getV x).toNat / 128) ∧
      (x = VF → (t.getV VF).toNat = match Config.shiftVfResult with
        | .flag => (s.getV VF).toNat / 128
        | .seqResult => (s.getV VF).toNat / 128 * 2
        | .capturedResult => (s.getV VF).toNat * 2 % 256))

/-- R145: Cxkk writes r AND kk for some byte r with 0 ≤ r ≤ kk, whatever the draw is. -/
def Obligations.RandomWritesADrawAndMask : Prop :=
  ∀ (s : State) (x : Reg) (kk : Byte),
    ∃ t, exec (.rnd x kk) s = .next t ∧ (∃ r : Byte, r.toNat ≤ kk.toNat ∧ t.getV x = r &&& kk) ∧
      t.pc = s.pc + 2 ∧ OnlyChanges [.pc, .draws] [x] s t

/-- R146 (the spec's inference from R145): over all legal draws, the values Cxkk can write are exactly the bit-
submasks of kk. -/
def Obligations.RandomValuesAreTheSubmasks : Prop :=
  ∀ (s : State) (x : Reg) (kk v : Byte),
    (∃ r : Byte, r.toNat ≤ kk.toNat ∧ (rndWith r x kk s).getV x = v) ↔ v &&& ~~~kk = 0

/-! ### Index register and memory (42_memory_index.md, 20_memory.md) -/

/-- R150, R153: Annn and Fx29 (V[x] × 5, no mask) set I and nothing else. -/
def Obligations.LoadIndexAndGlyphAddress : Prop :=
  ∀ (s : State) (x : Reg) (nnn : Addr12),
    (∃ t, exec (.ldI nnn) s = .next t ∧ t.index.toNat = nnn.toNat ∧ t.pc = s.pc + 2 ∧
      OnlyChanges [.pc, .index] [] s t) ∧
    (∃ t, exec (.ldF x) s = .next t ∧ t.index.toNat = (s.getV x).toNat * 5 ∧ t.pc = s.pc + 2 ∧
      OnlyChanges [.pc, .index] [] s t)

/-- R151, R152: Fx1E adds mod 65536; VF is 1 on overflow, and else 0 or unchanged as `FX1E_VF_CLEAR` says. -/
def Obligations.AddToIndexAndItsFlag : Prop :=
  ∀ (s : State) (x : Reg),
    ∃ t, exec (.addI x) s = .next t ∧ t.index.toNat = (s.index.toNat + (s.getV x).toNat) % 65536 ∧
      t.getV VF = (if s.index.toNat + (s.getV x).toNat > 0xFFFF then 1
        else if Config.fx1eVfClear then 0 else s.getV VF) ∧
      t.pc = s.pc + 2 ∧ OnlyChanges [.pc, .index] [VF] s t

/-- R154: with I, I+1, I+2 writable, Fx33 stores hundreds, tens and ones there; every other byte and everything else
stays. The bytes read back in a canonical memory. With I in the font it raises FontWrite, and past the end of memory
MemoryOutOfBounds, with the lowest failing address. -/
def Obligations.BcdStoresThreeDigits : Prop :=
  ∀ (s : State) (x : Reg),
    (80 ≤ s.index.toNat → s.index.toNat + 2 ≤ 4095 →
      ∃ t, exec (.ldB x) s = .next t ∧ t.pc = s.pc + 2 ∧ OnlyChanges [.pc, .memory] [] s t ∧
        (∀ a, a < s.ea 0 ∨ s.ea 0 + 3 ≤ a → t.mem.read a = s.mem.read a) ∧
        (s.mem.wf = true → (t.mem.read (s.ea 0)).toNat = (s.getV x).toNat / 100 ∧
          (t.mem.read (s.ea 1)).toNat = (s.getV x).toNat / 10 % 10 ∧
          (t.mem.read (s.ea 2)).toNat = (s.getV x).toNat % 10)) ∧
    (s.index.toNat ≤ 79 →
      ∃ t, exec (.ldB x) s = .next t ∧
        HaltedFrom s .fontWrite (some (encode (.ldB x))) (some (.address s.index.toNat)) t) ∧
    (80 ≤ s.index.toNat → s.index.toNat + 2 > 4095 →
      ∃ t, exec (.ldB x) s = .next t ∧
        HaltedFrom s .memoryOutOfBounds (some (encode (.ldB x))) (some (.address (max s.index.toNat 4096))) t)

/-- R155: with I .. I+x writable, Fx55 stores V0..V[x] there; I, every other byte and everything else stays. With I in
the font it raises FontWrite; with I ≥ 80 and I + x past the end of memory, MemoryOutOfBounds. -/
def Obligations.StoreRegistersFromIndexOn : Prop :=
  ∀ (s : State) (x : Reg),
    (80 ≤ s.index.toNat → s.index.toNat + x.val ≤ 4095 →
      ∃ t, exec (.storeRegs x) s = .next t ∧ t.pc = s.pc + 2 ∧ OnlyChanges [.pc, .memory] [] s t ∧
        (∀ a, a < s.ea 0 ∨ s.ea 0 + (x.val + 1) ≤ a → t.mem.read a = s.mem.read a) ∧
        (s.mem.wf = true → ∀ r : Reg, r ≤ x → t.mem.read (s.ea r.val) = s.getV r)) ∧
    (s.index.toNat ≤ 79 →
      ∃ t, exec (.storeRegs x) s = .next t ∧
        HaltedFrom s .fontWrite (some (encode (.storeRegs x))) (some (.address s.index.toNat)) t) ∧
    (80 ≤ s.index.toNat → s.index.toNat + x.val > 4095 →
      ∃ t, exec (.storeRegs x) s = .next t ∧
        HaltedFrom s .memoryOutOfBounds (some (encode (.storeRegs x))) (some (.address (max s.index.toNat 4096))) t)

/-- R156: with I .. I+x in memory, Fx65 loads V0..V[x] from there; I and everything else stays. With I + x past the
end of memory it raises MemoryOutOfBounds with address max(I, 4096). -/
def Obligations.LoadRegistersFromIndexOn : Prop :=
  ∀ (s : State) (x : Reg),
    (s.index.toNat + x.val ≤ 4095 →
      ∃ t, exec (.loadRegs x) s = .next t ∧ t.pc = s.pc + 2 ∧ OnlyChanges [.pc] (regsTo x) s t ∧
        ∀ r : Reg, r ≤ x → t.getV r = s.mem.read (s.ea r.val)) ∧
    (s.index.toNat + x.val > 4095 →
      ∃ t, exec (.loadRegs x) s = .next t ∧
        HaltedFrom s .memoryOutOfBounds (some (encode (.loadRegs x))) (some (.address (max s.index.toNat 4096))) t)

/-- R67 (the spec's inference from R50, R57 and R64), R58, for Fx55 and for Fx33: the fetch right after the store
reads, in each of its two positions, the byte just stored there, or the byte that was there before where the store did
not reach. -/
def Obligations.NextFetchSeesTheStore : Prop :=
  ∀ (s t : State) (x : Reg), s.mem.wf = true → 80 ≤ s.index.toNat → t.pc.toNat ≤ 4094 →
    (s.index.toNat + x.val ≤ 4095 → exec (.storeRegs x) s = .next t → ∃ hi lo, t.fetch = some (joinBytes hi lo) ∧
      AfterStore s (x.val + 1) (fun k => (s.getV (Fin.ofNat 16 k)).toNat) t.pc.toNat hi ∧
      AfterStore s (x.val + 1) (fun k => (s.getV (Fin.ofNat 16 k)).toNat) (t.pc.toNat + 1) lo) ∧
    (s.index.toNat + 2 ≤ 4095 → exec (.ldB x) s = .next t → ∃ hi lo, t.fetch = some (joinBytes hi lo) ∧
      AfterStore s 3 (fun k => (s.getV x).toNat / 10 ^ (2 - k) % 10) t.pc.toNat hi ∧
      AfterStore s 3 (fun k => (s.getV x).toNat / 10 ^ (2 - k) % 10) (t.pc.toNat + 1) lo)

/-- R155, R156, R64: Fx65 after Fx55 with the same I loads back what was stored, whatever the V registers hold by
then. -/
def Obligations.LoadAfterStoreReadsBack : Prop :=
  ∀ (s t u : State) (x : Reg), s.mem.wf = true → 80 ≤ s.index.toNat → s.index.toNat + x.val ≤ 4095 →
    exec (.storeRegs x) s = .next t → u.mem = t.mem → u.index = t.index →
    ∃ v, exec (.loadRegs x) u = .next v ∧ ∀ r : Reg, r ≤ x → v.getV r = s.getV r

/-! ### Graphics (43_graphics.md) -/

/-- R170: 00E0 makes every cell unlit and changes nothing else, VF included. -/
def Obligations.ClearScreen : Prop :=
  ∀ s : State, ∃ t, exec .cls s = .next t ∧ (∀ row col, pixel t.fb row col = false) ∧ t.pc = s.pc + 2 ∧
    OnlyChanges [.pc, .fb] [] s t

/-- R171 to R173 (R173 the spec's inference from R171): with its sprite bytes in memory, Dxyn inverts exactly the
pixels that set sprite bits land on, with wraparound, and leaves in VF whether one of them was lit; with a sprite byte
past the end of memory it raises MemoryOutOfBounds and draws nothing. The bit order of R172 is general knowledge (log
7). -/
def Obligations.DrawInvertsTheCoveredPixels : Prop :=
  ∀ (s : State) (x y : Reg) (n : BitVec 4),
    (s.index.toNat + n.toNat ≤ 4096 ∨ n.toNat = 0 →
      ∃ t, exec (.drw x y n) s = .next t ∧ t.pc = s.pc + 2 ∧ OnlyChanges [.pc, .fb] [VF] s t ∧
        (∀ row col, SpriteCovers s x y n row col → pixel t.fb row col = !pixel s.fb row col) ∧
        (∀ row col, ¬SpriteCovers s x y n row col → pixel t.fb row col = pixel s.fb row col) ∧
        ((∃ row col, SpriteCovers s x y n row col ∧ pixel s.fb row col = true) → t.getV VF = 1) ∧
        ((¬∃ row col, SpriteCovers s x y n row col ∧ pixel s.fb row col = true) → t.getV VF = 0)) ∧
    (s.index.toNat + n.toNat > 4096 → 1 ≤ n.toNat →
      ∃ t, exec (.drw x y n) s = .next t ∧
        HaltedFrom s .memoryOutOfBounds (some (encode (.drw x y n))) (some (.address (max s.index.toNat 4096))) t)

/-- R174 (the spec's inference from R171 and R173): the same sprite drawn twice at the same place restores the
framebuffer, and the second draw sets VF exactly when a pixel under a set sprite bit is lit after the first. Which
pixel a sprite bit falls on is R172's, general knowledge (log 7). -/
def Obligations.DrawingTwiceRestores : Prop :=
  ∀ (s t u : State) (x y : Reg) (n : BitVec 4), s.index.toNat + n.toNat ≤ 4096 ∨ n.toNat = 0 →
    exec (.drw x y n) s = .next t → u.fb = t.fb → u.mem = t.mem → u.index = s.index →
    u.getV x = s.getV x → u.getV y = s.getV y →
    ∃ v, exec (.drw x y n) u = .next v ∧ v.fb = s.fb ∧
      (v.getV VF = 1 ↔ ∃ row col, SpriteCovers s x y n row col ∧ pixel t.fb row col = true)

/-! ### Timers and keys (44_timer_input.md) -/

/-- R182 to R184: Fx07, Fx15 and Fx18 copy between V[x] and the timers and change nothing else. -/
def Obligations.TimerTransfers : Prop :=
  ∀ (s : State) (x : Reg),
    (∃ t, exec (.ldVxDt x) s = .next t ∧ t.getV x = s.dt ∧ t.pc = s.pc + 2 ∧ OnlyChanges [.pc] [x] s t) ∧
    (∃ t, exec (.ldDtVx x) s = .next t ∧ t.dt = s.getV x ∧ t.pc = s.pc + 2 ∧ OnlyChanges [.pc, .dt] [] s t) ∧
    (∃ t, exec (.ldStVx x) s = .next t ∧ t.st = s.getV x ∧ t.pc = s.pc + 2 ∧ OnlyChanges [.pc, .st] [] s t)

/-- R180, R181: Ex9E and ExA1 skip by the latch of key V[x], and raise KeyIndexOutOfRange when V[x] > 15. -/
def Obligations.SkipOnKeyLatch : Prop :=
  ∀ (s : State) (x : Reg),
    (∀ k : Fin 16, (s.getV x).toNat = k.val →
      (∃ t, exec (.skp x) s = .next t ∧ t.pc = s.pc + (if s.keys[k] = true then 4 else 2) ∧ OnlyChanges [.pc] [] s t) ∧
      (∃ t, exec (.sknp x) s = .next t ∧ t.pc = s.pc + (if s.keys[k] = true then 2 else 4) ∧
        OnlyChanges [.pc] [] s t)) ∧
    ((s.getV x).toNat > 15 →
      (∃ t, exec (.skp x) s = .next t ∧
        HaltedFrom s .keyIndexOutOfRange (some (encode (.skp x))) (some (.key (s.getV x))) t) ∧
      (∃ t, exec (.sknp x) s = .next t ∧
        HaltedFrom s .keyIndexOutOfRange (some (encode (.sknp x))) (some (.key (s.getV x))) t))

/-- R185: Fx0A captures the lowest pressed key; with none pressed the whole state, pc included, is as it was. -/
def Obligations.KeyWaitCapturesLowestOrRepeats : Prop :=
  ∀ (s : State) (x : Reg),
    (∀ k : Fin 16, s.keys[k] = true → (∀ j : Fin 16, j < k → s.keys[j] = false) →
      ∃ t, exec (.ldVxK x) s = .next t ∧ (t.getV x).toNat = k.val ∧ t.pc = s.pc + 2 ∧ OnlyChanges [.pc] [x] s t) ∧
    ((∀ k : Fin 16, s.keys[k] = false) → exec (.ldVxK x) s = .next s)

/-! ### Host operations (60_exceptions.md, 70_reset_and_hazards.md) -/

/-- R230, R93: `execute_one_instruction` on a Running machine is one step, with nothing to report when the machine
goes on and with the fault record when the step raised a fault. -/
def Obligations.ExecuteOneIsAStepWithItsReport : Prop :=
  ∀ (font : Config.Font) (s : State), s.Running → ∃ t, step s = .next t ∧
    ((t.Running ∧ hostStep font .executeOne s = .next (t, .done)) ∨
     ∃ r, t.status = .halted r ∧ hostStep font .executeOne s = .next (t, .faulted r))

/-- R220, R221: `advance_timers` takes one from each timer that is not 0 and reports sound by `SOUND_SAMPLE`. -/
def Obligations.AdvanceTimersCountsDown : Prop :=
  ∀ (font : Config.Font) (s : State), s.Running → ∃ t b, hostStep font .advanceTimers s = .next (t, .sound b) ∧
    t.dt.toNat = s.dt.toNat - 1 ∧ t.st.toNat = s.st.toNat - 1 ∧ OnlyChanges [.dt, .st] [] s t ∧
    (b = true ↔ match Config.soundSample with
      | .pre => s.st.toNat ≠ 0
      | .post => s.st.toNat - 1 ≠ 0)

/-- R223: `set_key` sets that one latch, and an absent or too large index changes nothing. -/
def Obligations.SetKeySetsOneLatch : Prop :=
  ∀ (font : Config.Font) (s : State) (k : Option Nat) (pressed : Bool), s.Running →
    ∃ t, hostStep font (.setKey k pressed) s = .next (t, .done) ∧ OnlyChanges [.keys] [] s t ∧
      ∀ j : Fin 16, t.keys[j] = if k = some j.val then pressed else s.keys[j]

/-- R224, R226: `read_framebuffer` and `snapshot` change no state; the one returns the grid, and the other the record
whose fields hold the components one by one, the screen row-major at index row·64 + col, with the fps that was given
and no other field. How a record's fields are typed is log 10. -/
def Obligations.ReadingsChangeNothing : Prop :=
  ∀ (font : Config.Font) (s : State) (fps : BitVec 32), s.Running →
    hostStep font .readFramebuffer s = .next (s, .screen s.fb) ∧
    ∃ r, hostStep font (.snapshot fps) s = .next (s, .record r) ∧
      (∃ l, r.memory = some (.bytes l) ∧ l.length = 4096 ∧ ∀ a, a < 4096 → l[a]? = some (s.mem.read a)) ∧
      (∃ l, r.stack = some (.words l) ∧ l.length = 16 ∧ ∀ j : Fin 16, l[j.val]? = some s.stack[j]) ∧
      (∃ l, r.v = some (.bytes l) ∧ l.length = 16 ∧ ∀ x : Reg, l[x.val]? = some (s.getV x)) ∧
      (∃ l, r.keys = some (.bools l) ∧ l.length = 16 ∧ ∀ k : Fin 16, l[k.val]? = some s.keys[k]) ∧
      (∃ l, r.screen = some (.bools l) ∧ l.length = 2048 ∧
        ∀ (row : Fin 32) (col : Fin 64), l[row.val * 64 + col.val]? = some (pixel s.fb row col)) ∧
      r.i = some (.num16 s.index) ∧ r.pc = some (.num16 s.pc) ∧
      (∃ b, r.sp = some (.num8 b) ∧ b.toNat = s.sp.val) ∧
      r.delayTimer = some (.num8 s.dt) ∧ r.soundTimer = some (.num8 s.st) ∧ r.fps = some (.num32 fps) ∧ r.unknown = []

/-- R251, R252: `load_program` copies up to 3584 bytes to 512 and up, touching nothing else; a longer program is a
LoadError and changes nothing. -/
def Obligations.LoadProgramCopiesOrRefuses : Prop :=
  ∀ (font : Config.Font) (s : State) (bytes : List Byte), s.Running →
    (bytes.length ≤ 3584 → ∃ t, hostStep font (.loadProgram bytes) s = .next (t, .done) ∧ OnlyChanges [.memory] [] s t ∧
      (∀ a, a < 512 ∨ 512 + bytes.length ≤ a → t.mem.read a = s.mem.read a) ∧
      (s.mem.wf = true → ∀ j, j < bytes.length → bytes[j]? = some (t.mem.read (512 + j)))) ∧
    (bytes.length > 3584 → hostStep font (.loadProgram bytes) s = .next (s, .loadError))

/-- R227: restoring a snapshot, into any Running machine, gives back the state that was saved, bit for bit (the
model's own draw counter apart, log 3). -/
def Obligations.SnapshotThenRestoreIsIdentity : Prop :=
  ∀ (font : Config.Font) (s s' : State) (fps : BitVec 32), s.Running → s'.Running → s.mem.wf = true →
    hostStep font (.restore (s.snapshotRecord fps)) s' = .next ({ s with draws := s'.draws }, .restored fps)

/-- R227: `restore` rejects, changing nothing, exactly the records with an unknown field, a missing field, a field of
the wrong type or length, or sp > 16; any other record becomes the whole state, Running, whose snapshot is that
record. That `fps` is among the required fields is the model's reading (log 10). -/
def Obligations.RestoreRejectsExactlyBadRecords : Prop :=
  ∀ (font : Config.Font) (s : State) (r : PersistedRecord), s.Running →
    (hostStep font (.restore r) s = .next (s, .restoreError) ↔ ¬RecordOk r) ∧
    (RecordOk r → ∃ t fps, hostStep font (.restore r) s = .next (t, .restored fps) ∧ t.Running ∧
      t.snapshotRecord fps = r)

/-! ### What rests on the host (70_reset_and_hazards.md R257, R262; the fairness is log 11) -/

/-- R262, R257: a machine at an Fx0A, under a host in its driver loop. If the host again and again presses a key and
then executes, the machine gets past the Fx0A, and stays at it until then. If no key is held and the host presses
none, the machine stays at it for ever. -/
def Obligations.KeyWaitEndsByTheHost : Prop :=
  ∀ (font : Config.Font) (h : HostCalls) (s : State) (x : Reg), s.Running →
    s.fetch.bind decodeWord = some (.ldVxK x) → h.InDriverLoop →
    (h.PressesThenExecutes → ∃ n t, afterCalls font h s n = some t ∧ t.Running ∧ t.pc = s.pc + 2 ∧
      ∀ m, m < n → ∃ u, afterCalls font h s m = some u ∧ u.pc = s.pc) ∧
    ((∀ k : Fin 16, s.keys[k] = false) → (∀ n k, h n = .setKey (some k) true → 16 ≤ k) →
      ∀ n, ∃ t, afterCalls font h s n = some t ∧ t.Running ∧ t.pc = s.pc ∧ ∀ r, t.getV r = s.getV r)

/-- R262: a run that does not fault and executes no Fx15, under a host in its driver loop. If the host again and again
advances the timers, executing or not, DT comes to 0 and stays there, so that an Fx07 executed then reads 0; if the host
again and again executes too, an execution is still to come by then. If the host never advances the timers, DT never
changes. -/
def Obligations.DelayTimerRunsOutByTheHost : Prop :=
  ∀ (font : Config.Font) (h : HostCalls) (s : State), h.InDriverLoop →
    (∀ n, ∃ t, afterCalls font h s n = some t ∧ t.Running ∧
      (h n = .executeOne → ∀ x, t.fetch.bind decodeWord ≠ some (.ldDtVx x))) →
    (h.Ticks → ∃ N, (h.Executes → ∃ n, N ≤ n ∧ h n = .executeOne) ∧ ∀ n, N ≤ n → ∃ t u,
      afterCalls font h s n = some t ∧ t.dt = 0 ∧ afterCalls font h s (n + 1) = some u ∧
      ∀ x, h n = .executeOne → t.fetch.bind decodeWord = some (.ldVxDt x) → u.getV x = 0) ∧
    ((∀ n, h n ≠ .advanceTimers) → ∀ n t, afterCalls font h s n = some t → t.dt = s.dt)
end

