-- ==== Sys2Proof/Laws/Decode.lean ====
section
/-! SUPPORT. Words, their nibbles and their fields (30_encoding.md R81): what the encoder builds the decoder takes apart. -/

namespace Sys2Proof

theorem toNat_ofNibbles (d3 d2 d1 d0 : BitVec 4) :
    (ofNibbles d3 d2 d1 d0).toNat = d3.toNat * 4096 + d2.toNat * 256 + d1.toNat * 16 + d0.toNat := by
  have h3 := d3.isLt
  have h2 := d2.isLt
  have h1 := d1.isLt
  have h0 := d0.isLt
  rw [ofNibbles, BitVec.toNat_append, BitVec.toNat_append, BitVec.toNat_append,
    ← Nat.shiftLeft_add_eq_or_of_lt (by omega), ← Nat.shiftLeft_add_eq_or_of_lt (by omega),
    ← Nat.shiftLeft_add_eq_or_of_lt (by omega)]
  simp only [Nat.shiftLeft_eq]
  omega

theorem toNat_ofXkk (op : BitVec 4) (x : Reg) (kk : Byte) :
    (ofXkk op x kk).toNat = op.toNat * 4096 + x.val * 256 + kk.toNat := by
  have h2 := op.isLt
  have h1 := (regNibble x).isLt
  have h0 := kk.isLt
  have hx : (regNibble x).toNat = x.val := rfl
  rw [ofXkk, BitVec.toNat_append, BitVec.toNat_append, ← Nat.shiftLeft_add_eq_or_of_lt (by omega),
    ← Nat.shiftLeft_add_eq_or_of_lt (by omega), hx]
  simp only [Nat.shiftLeft_eq]
  omega

theorem toNat_ofNnn (op : BitVec 4) (nnn : Addr12) : (ofNnn op nnn).toNat = op.toNat * 4096 + nnn.toNat := by
  have h1 := op.isLt
  have h0 := nnn.isLt
  rw [ofNnn, BitVec.toNat_append, ← Nat.shiftLeft_add_eq_or_of_lt (by omega)]
  simp only [Nat.shiftLeft_eq]

theorem toNat_nibble (w : Word) (k : Nat) : (nibble w k).toNat = w.toNat / 2 ^ (4 * k) % 16 := by
  rw [nibble, BitVec.extractLsb'_toNat, Nat.shiftRight_eq_div_pow]

theorem toNat_fieldX (w : Word) : (fieldX w).val = w.toNat / 256 % 16 := toNat_nibble w 2

theorem toNat_fieldY (w : Word) : (fieldY w).val = w.toNat / 16 % 16 := toNat_nibble w 1

theorem toNat_fieldN (w : Word) : (fieldN w).toNat = w.toNat % 16 := by
  rw [fieldN, toNat_nibble]
  simp

theorem toNat_fieldKk (w : Word) : (fieldKk w).toNat = w.toNat % 256 := by
  rw [fieldKk, BitVec.extractLsb'_toNat, Nat.shiftRight_zero]

theorem toNat_fieldNnn (w : Word) : (fieldNnn w).toNat = w.toNat % 4096 := by
  rw [fieldNnn, BitVec.extractLsb'_toNat, Nat.shiftRight_zero]

/-- A word is its four nibbles. -/
theorem ofNibbles_nibble (w : Word) : ofNibbles (nibble w 3) (nibble w 2) (nibble w 1) (nibble w 0) = w := by
  apply BitVec.eq_of_toNat_eq
  have := w.isLt
  simp only [toNat_ofNibbles, toNat_nibble]
  omega

@[simp] theorem nibble3_ofNibbles (d3 d2 d1 d0 : BitVec 4) : nibble (ofNibbles d3 d2 d1 d0) 3 = d3 := by
  apply BitVec.eq_of_toNat_eq
  have h3 := d3.isLt; have h2 := d2.isLt; have h1 := d1.isLt; have h0 := d0.isLt
  rw [toNat_nibble, toNat_ofNibbles]
  omega

@[simp] theorem nibble2_ofNibbles (d3 d2 d1 d0 : BitVec 4) : nibble (ofNibbles d3 d2 d1 d0) 2 = d2 := by
  apply BitVec.eq_of_toNat_eq
  have h3 := d3.isLt; have h2 := d2.isLt; have h1 := d1.isLt; have h0 := d0.isLt
  rw [toNat_nibble, toNat_ofNibbles]
  omega

@[simp] theorem nibble1_ofNibbles (d3 d2 d1 d0 : BitVec 4) : nibble (ofNibbles d3 d2 d1 d0) 1 = d1 := by
  apply BitVec.eq_of_toNat_eq
  have h3 := d3.isLt; have h2 := d2.isLt; have h1 := d1.isLt; have h0 := d0.isLt
  rw [toNat_nibble, toNat_ofNibbles]
  omega

@[simp] theorem nibble0_ofNibbles (d3 d2 d1 d0 : BitVec 4) : nibble (ofNibbles d3 d2 d1 d0) 0 = d0 := by
  apply BitVec.eq_of_toNat_eq
  have h3 := d3.isLt; have h2 := d2.isLt; have h1 := d1.isLt; have h0 := d0.isLt
  rw [toNat_nibble, toNat_ofNibbles]
  omega

/-- `op x kk` by nibbles. -/
theorem ofXkk_eq (op : BitVec 4) (x : Reg) (kk : Byte) :
    ofXkk op x kk = ofNibbles op (regNibble x) (kk.extractLsb' 4 4) (kk.extractLsb' 0 4) := by
  apply BitVec.eq_of_toNat_eq
  have h := kk.isLt
  have hx : (regNibble x).toNat = x.val := rfl
  rw [toNat_ofXkk, toNat_ofNibbles, BitVec.extractLsb'_toNat, BitVec.extractLsb'_toNat, Nat.shiftRight_eq_div_pow,
    Nat.shiftRight_eq_div_pow, hx]
  omega

/-- `op nnn` by nibbles. -/
theorem ofNnn_eq (op : BitVec 4) (nnn : Addr12) :
    ofNnn op nnn = ofNibbles op (nnn.extractLsb' 8 4) (nnn.extractLsb' 4 4) (nnn.extractLsb' 0 4) := by
  apply BitVec.eq_of_toNat_eq
  have h := nnn.isLt
  rw [toNat_ofNnn, toNat_ofNibbles, BitVec.extractLsb'_toNat, BitVec.extractLsb'_toNat, BitVec.extractLsb'_toNat,
    Nat.shiftRight_eq_div_pow, Nat.shiftRight_eq_div_pow, Nat.shiftRight_eq_div_pow]
  omega

@[simp] theorem fieldX_ofXkk (op : BitVec 4) (x : Reg) (kk : Byte) : fieldX (ofXkk op x kk) = x := by
  apply Fin.ext
  have h0 := kk.isLt; have h1 := x.isLt
  rw [toNat_fieldX, toNat_ofXkk]
  omega

@[simp] theorem fieldKk_ofXkk (op : BitVec 4) (x : Reg) (kk : Byte) : fieldKk (ofXkk op x kk) = kk := by
  apply BitVec.eq_of_toNat_eq
  have h0 := kk.isLt
  rw [toNat_fieldKk, toNat_ofXkk]
  omega

@[simp] theorem fieldNnn_ofNnn (op : BitVec 4) (nnn : Addr12) : fieldNnn (ofNnn op nnn) = nnn := by
  apply BitVec.eq_of_toNat_eq
  have h0 := nnn.isLt
  rw [toNat_fieldNnn, toNat_ofNnn]
  omega

@[simp] theorem fieldX_ofXyn (op : BitVec 4) (x y : Reg) (n : BitVec 4) : fieldX (ofXyn op x y n) = x := by
  rw [fieldX, ofXyn, nibble2_ofNibbles]
  rfl

@[simp] theorem fieldY_ofXyn (op : BitVec 4) (x y : Reg) (n : BitVec 4) : fieldY (ofXyn op x y n) = y := by
  rw [fieldY, ofXyn, nibble1_ofNibbles]
  rfl

@[simp] theorem fieldN_ofXyn (op : BitVec 4) (x y : Reg) (n : BitVec 4) : fieldN (ofXyn op x y n) = n := by
  rw [fieldN, ofXyn, nibble0_ofNibbles]

theorem toNat_joinBytes (hi lo : Byte) : (joinBytes hi lo).toNat = hi.toNat * 256 + lo.toNat := by
  have h1 := hi.isLt; have h0 := lo.isLt
  rw [joinBytes, BitVec.toNat_append, ← Nat.shiftLeft_add_eq_or_of_lt (by omega)]
  simp only [Nat.shiftLeft_eq]

/-- A word is its two bytes, the high one first (20_memory.md R58). -/
@[simp] theorem joinBytes_highByte_lowByte (w : Word) : joinBytes (highByte w) (lowByte w) = w := by
  apply BitVec.eq_of_toNat_eq
  have := w.isLt
  rw [toNat_joinBytes, highByte, lowByte, BitVec.extractLsb'_toNat, BitVec.extractLsb'_toNat, Nat.shiftRight_eq_div_pow,
    Nat.shiftRight_eq_div_pow]
  omega

end Sys2Proof
end

