-- ==== Sys2Proof/Laws/Memory.lean ====
section
/-! SUPPORT. What the memory operations do to reads, and that each keeps the canonical form. -/

namespace Sys2Proof.Machine

/-! ### Reads -/

@[simp] theorem Memory.read_nil (a : Nat) : Memory.read [] a = resetByte a := rfl

theorem Memory.read_cons (k a : Nat) (b : Byte) (m : Memory) :
    Memory.read ((k, b) :: m) a = if k = a then b else Memory.read m a := rfl

/-- In a memory canonical from `lo` on, an address below `lo` is unlisted. -/
theorem Memory.read_below {lo : Nat} {m : Memory} (h : Memory.wfFrom lo m = true) {a : Nat} (ha : a < lo) :
    Memory.read m a = resetByte a := by
  induction m generalizing lo with
  | nil => rfl
  | cons c m ih =>
    obtain ⟨k, b⟩ := c
    simp only [Memory.wfFrom, Bool.and_eq_true, decide_eq_true_eq] at h
    obtain ⟨⟨⟨h1, -⟩, -⟩, h4⟩ := h
    rw [Memory.read_cons, if_neg (by omega), ih h4 (by omega)]

theorem Memory.read_consCell_of_ne {a a' : Nat} (b : Byte) (m : Memory) (h : a' ≠ a) :
    Memory.read (consCell a b m) a' = Memory.read m a' := by
  unfold consCell
  split
  · rfl
  · rw [Memory.read_cons, if_neg (Ne.symm h)]

theorem Memory.read_consCell_self {lo a : Nat} (b : Byte) {m : Memory} (h : Memory.wfFrom lo m = true) (ha : a < lo) :
    Memory.read (consCell a b m) a = b := by
  unfold consCell
  split
  · next hb => rw [Memory.read_below h ha, hb]
  · rw [Memory.read_cons, if_pos rfl]

/-- A write leaves every other address as it was, in any memory. -/
theorem Memory.read_write_of_ne {a a' : Nat} (m : Memory) (b : Byte) (h : a' ≠ a) :
    Memory.read (Memory.write m a b) a' = Memory.read m a' := by
  induction m with
  | nil => exact Memory.read_consCell_of_ne b [] h
  | cons c m ih =>
    obtain ⟨k, c⟩ := c
    unfold Memory.write
    split
    · exact Memory.read_consCell_of_ne b _ h
    · split
      · next hk => rw [Memory.read_consCell_of_ne b m h, Memory.read_cons, if_neg (by omega)]
      · rw [Memory.read_cons, Memory.read_cons, ih]

theorem Memory.read_write_self_from {lo a : Nat} {m : Memory} (h : Memory.wfFrom lo m = true) (b : Byte) :
    Memory.read (Memory.write m a b) a = b := by
  induction m generalizing lo with
  | nil => exact Memory.read_consCell_self (lo := a + 1) b rfl (by omega)
  | cons c m ih =>
    obtain ⟨k, c⟩ := c
    have h' := h
    simp only [Memory.wfFrom, Bool.and_eq_true, decide_eq_true_eq] at h
    obtain ⟨⟨⟨h1, h2⟩, h3⟩, h4⟩ := h
    unfold Memory.write
    split
    · next hk =>
      refine Memory.read_consCell_self (lo := k) b ?_ hk
      simp only [Memory.wfFrom, Bool.and_eq_true, decide_eq_true_eq]
      exact ⟨⟨⟨by omega, h2⟩, h3⟩, h4⟩
    · split
      · next hk => exact Memory.read_consCell_self b h4 (by omega)
      · rw [Memory.read_cons, if_neg (by omega), ih h4]

/-- A read after a write to the same address gives the value written. -/
theorem Memory.read_write_self {m : Memory} (h : m.wf = true) (a : Nat) (b : Byte) :
    Memory.read (Memory.write m a b) a = b := Memory.read_write_self_from h b

/-! ### The canonical form -/

theorem Memory.wfFrom_mono {lo lo' : Nat} {m : Memory} (h : Memory.wfFrom lo m = true) (hl : lo' ≤ lo) :
    Memory.wfFrom lo' m = true := by
  cases m with
  | nil => rfl
  | cons c m =>
    obtain ⟨k, b⟩ := c
    simp only [Memory.wfFrom, Bool.and_eq_true, decide_eq_true_eq] at h ⊢
    exact ⟨⟨⟨by omega, h.1.1.2⟩, h.1.2⟩, h.2⟩

theorem Memory.wfFrom_consCell {lo a : Nat} {b : Byte} {m : Memory} (h : Memory.wfFrom (a + 1) m = true) (hl : lo ≤ a)
    (ha : a < 4096) : Memory.wfFrom lo (consCell a b m) = true := by
  unfold consCell
  split
  · exact Memory.wfFrom_mono h (by omega)
  · next hb => simp [Memory.wfFrom, h, hl, ha, hb]

theorem Memory.wfFrom_write {lo a : Nat} {m : Memory} (h : Memory.wfFrom lo m = true) (b : Byte) (hl : lo ≤ a)
    (ha : a < 4096) : Memory.wfFrom lo (Memory.write m a b) = true := by
  induction m generalizing lo with
  | nil => exact Memory.wfFrom_consCell rfl hl ha
  | cons c m ih =>
    obtain ⟨k, c⟩ := c
    simp only [Memory.wfFrom, Bool.and_eq_true, decide_eq_true_eq] at h
    obtain ⟨⟨⟨h1, h2⟩, h3⟩, h4⟩ := h
    unfold Memory.write
    split
    · next hk =>
      refine Memory.wfFrom_consCell ?_ hl ha
      simp only [Memory.wfFrom, Bool.and_eq_true, decide_eq_true_eq]
      exact ⟨⟨⟨by omega, h2⟩, h3⟩, h4⟩
    · split
      · next hk => subst hk; exact Memory.wfFrom_consCell h4 hl ha
      · simp only [Memory.wfFrom, Bool.and_eq_true, decide_eq_true_eq]
        exact ⟨⟨⟨h1, h2⟩, h3⟩, ih h4 (by omega)⟩

/-- A write inside the address space keeps the canonical form. -/
theorem Memory.wf_write {m : Memory} (h : m.wf = true) (b : Byte) {a : Nat} (ha : a < 4096) :
    (Memory.write m a b).wf = true := Memory.wfFrom_write h b (Nat.zero_le a) ha

/-- Canonical memories that read alike are equal. -/
theorem Memory.ext_from {lo : Nat} {m n : Memory} (hm : Memory.wfFrom lo m = true) (hn : Memory.wfFrom lo n = true)
    (h : ∀ a, Memory.read m a = Memory.read n a) : m = n := by
  induction m generalizing lo n with
  | nil =>
    cases n with
    | nil => rfl
    | cons d n =>
      obtain ⟨k, b⟩ := d
      simp only [Memory.wfFrom, Bool.and_eq_true, bne_iff_ne] at hn
      have := h k
      rw [Memory.read_cons, if_pos rfl, Memory.read_nil] at this
      exact absurd this.symm hn.1.2
  | cons c m ih =>
    obtain ⟨j, c⟩ := c
    have hm' := hm
    simp only [Memory.wfFrom, Bool.and_eq_true, bne_iff_ne, decide_eq_true_eq] at hm
    cases n with
    | nil =>
      have := h j
      rw [Memory.read_cons, if_pos rfl, Memory.read_nil] at this
      exact absurd this hm.1.2
    | cons d n =>
      obtain ⟨k, b⟩ := d
      have hn' := hn
      simp only [Memory.wfFrom, Bool.and_eq_true, bne_iff_ne, decide_eq_true_eq] at hn
      have hjk : j = k := by
        rcases Nat.lt_trichotomy j k with hlt | he | hlt
        · have e := h j
          rw [Memory.read_cons, if_pos rfl, Memory.read_cons, if_neg (by omega),
            Memory.read_below hn.2 (by omega)] at e
          exact absurd e hm.1.2
        · exact he
        · have e := h k
          rw [Memory.read_cons, if_neg (by omega), Memory.read_cons, if_pos rfl,
            Memory.read_below hm.2 (by omega)] at e
          exact absurd e.symm hn.1.2
      subst hjk
      have hcb : c = b := by
        have e := h j
        rwa [Memory.read_cons, if_pos rfl, Memory.read_cons, if_pos rfl] at e
      subst hcb
      congr 1
      refine ih hm.2 hn.2 fun a => ?_
      by_cases ha : j = a
      · subst ha
        rw [Memory.read_below hm.2 (by omega), Memory.read_below hn.2 (by omega)]
      · have e := h a
        rwa [Memory.read_cons, if_neg ha, Memory.read_cons, if_neg ha] at e

theorem Memory.ext_of_wf {m n : Memory} (hm : m.wf = true) (hn : n.wf = true)
    (h : ∀ a, Memory.read m a = Memory.read n a) : m = n := Memory.ext_from hm hn h

/-! ### Several bytes -/

theorem Memory.wf_writeBytes {m : Memory} (h : m.wf = true) (bs : List Byte) {a : Nat} (ha : a + bs.length ≤ 4096) :
    (Memory.writeBytes m a bs).wf = true := by
  induction bs generalizing m a with
  | nil => exact h
  | cons b bs ih =>
    simp only [List.length_cons] at ha
    exact ih (Memory.wf_write h b (by omega)) (by omega)

/-- Outside the written bytes nothing changes, in any memory. -/
theorem Memory.read_writeBytes_outside (m : Memory) (bs : List Byte) {a a' : Nat} (h : a' < a ∨ a + bs.length ≤ a') :
    Memory.read (Memory.writeBytes m a bs) a' = Memory.read m a' := by
  induction bs generalizing m a with
  | nil => rfl
  | cons b bs ih =>
    simp only [List.length_cons] at h
    rw [Memory.writeBytes, ih _ (by omega), Memory.read_write_of_ne _ _ (by omega)]

/-- Byte `k` of the written bytes reads back. -/
theorem Memory.read_writeBytes {m : Memory} (h : m.wf = true) (bs : List Byte) {a k : Nat} (hk : k < bs.length)
    (ha : a + bs.length ≤ 4096) : Memory.read (Memory.writeBytes m a bs) (a + k) = bs[k] := by
  induction bs generalizing m a k with
  | nil => exact absurd hk (by simp)
  | cons b bs ih =>
    simp only [List.length_cons] at ha hk
    rw [Memory.writeBytes]
    cases k with
    | zero =>
      rw [Memory.read_writeBytes_outside _ _ (by omega)]
      exact Memory.read_write_self h a b
    | succ k =>
      have e := ih (Memory.wf_write h b (a := a) (by omega)) (a := a + 1) (k := k) (by omega) (by omega)
      rw [show a + (k + 1) = a + 1 + k by omega, e, List.getElem_cons_succ]

theorem Memory.wfFrom_ofBytes (bs : List Byte) {a : Nat} (ha : a + bs.length ≤ 4096) :
    Memory.wfFrom a (Memory.ofBytes a bs) = true := by
  induction bs generalizing a with
  | nil => rfl
  | cons b bs ih =>
    simp only [List.length_cons] at ha
    exact Memory.wfFrom_consCell (ih (by omega)) (Nat.le_refl a) (by omega)

theorem Memory.wf_ofBytes (bs : List Byte) (h : bs.length ≤ 4096) : (Memory.ofBytes 0 bs).wf = true :=
  Memory.wfFrom_ofBytes bs (by omega)

theorem Memory.read_ofBytes (bs : List Byte) {a k : Nat} (hk : k < bs.length) (ha : a + bs.length ≤ 4096) :
    Memory.read (Memory.ofBytes a bs) (a + k) = bs[k] := by
  induction bs generalizing a k with
  | nil => exact absurd hk (by simp)
  | cons b bs ih =>
    simp only [List.length_cons] at ha hk
    rw [Memory.ofBytes]
    cases k with
    | zero => exact Memory.read_consCell_self b (Memory.wfFrom_ofBytes bs (by omega)) (by omega)
    | succ k =>
      rw [Memory.read_consCell_of_ne _ _ (by omega), show a + (k + 1) = a + 1 + k by omega,
        ih (by omega) (by omega), List.getElem_cons_succ]

/-- Outside the bytes it is made of, such a memory reads its reset contents. -/
theorem Memory.read_ofBytes_above (bs : List Byte) {a a' : Nat} (h : a + bs.length ≤ a') :
    Memory.read (Memory.ofBytes a bs) a' = resetByte a' := by
  induction bs generalizing a with
  | nil => rfl
  | cons b bs ih =>
    simp only [List.length_cons] at h
    rw [Memory.ofBytes, Memory.read_consCell_of_ne _ _ (by omega), ih (by omega)]

/-- A canonical memory reads its reset contents above the address space. -/
theorem Memory.read_above_from {lo : Nat} {m : Memory} (h : Memory.wfFrom lo m = true) {a : Nat} (ha : 4096 ≤ a) :
    Memory.read m a = resetByte a := by
  induction m generalizing lo with
  | nil => rfl
  | cons c m ih =>
    obtain ⟨k, b⟩ := c
    simp only [Memory.wfFrom, Bool.and_eq_true, decide_eq_true_eq, Config.memSize] at h
    rw [Memory.read_cons, if_neg (by omega), ih h.2]

/-- A canonical memory is the memory of its own 4096 bytes. -/
theorem Memory.ofBytes_readBytes {m : Memory} (h : m.wf = true) :
    Memory.ofBytes 0 (m.readBytes 0 Config.memSize) = m := by
  have hl : (m.readBytes 0 Config.memSize).length = 4096 := by simp [Memory.readBytes]
  have hw := Memory.wf_ofBytes (m.readBytes 0 Config.memSize) (by omega)
  refine Memory.ext_of_wf hw h fun a => ?_
  by_cases ha : a < 4096
  · have e := Memory.read_ofBytes (m.readBytes 0 Config.memSize) (a := 0) (k := a) (by omega) (by omega)
    simpa [Memory.readBytes] using e
  · rw [Memory.read_above_from hw (by omega), Memory.read_above_from h (by omega)]

@[simp] theorem Memory.length_readBytes (m : Memory) (a n : Nat) : (m.readBytes a n).length = n := by
  simp [Memory.readBytes]

theorem Memory.getElem_readBytes (m : Memory) (a n k : Nat) (h : k < (m.readBytes a n).length) :
    (m.readBytes a n)[k] = Memory.read m (a + k) := by
  simp [Memory.readBytes]

end Sys2Proof.Machine
end

