-- ==== Sys2Proof/Laws/State.lean ====
section
/-! SUPPORT. One lemma per field per named update of State, true by rfl, and the register reads through each update. -/

namespace Sys2Proof.Machine

variable (s : State)

/-! #### setV -/

@[simp] theorem State.setV_v (x : Reg) (b : Byte) : (s.setV x b).v = s.v.set x b := rfl
@[simp] theorem State.setV_pc (x : Reg) (b : Byte) : (s.setV x b).pc = s.pc := rfl
@[simp] theorem State.setV_index (x : Reg) (b : Byte) : (s.setV x b).index = s.index := rfl
@[simp] theorem State.setV_stack (x : Reg) (b : Byte) : (s.setV x b).stack = s.stack := rfl
@[simp] theorem State.setV_sp (x : Reg) (b : Byte) : (s.setV x b).sp = s.sp := rfl
@[simp] theorem State.setV_dt (x : Reg) (b : Byte) : (s.setV x b).dt = s.dt := rfl
@[simp] theorem State.setV_st (x : Reg) (b : Byte) : (s.setV x b).st = s.st := rfl
@[simp] theorem State.setV_keys (x : Reg) (b : Byte) : (s.setV x b).keys = s.keys := rfl
@[simp] theorem State.setV_fb (x : Reg) (b : Byte) : (s.setV x b).fb = s.fb := rfl
@[simp] theorem State.setV_mem (x : Reg) (b : Byte) : (s.setV x b).mem = s.mem := rfl
@[simp] theorem State.setV_status (x : Reg) (b : Byte) : (s.setV x b).status = s.status := rfl
@[simp] theorem State.setV_draws (x : Reg) (b : Byte) : (s.setV x b).draws = s.draws := rfl

/-! #### setPc -/

@[simp] theorem State.setPc_v (p : Word) : (s.setPc p).v = s.v := rfl
@[simp] theorem State.setPc_pc (p : Word) : (s.setPc p).pc = p := rfl
@[simp] theorem State.setPc_index (p : Word) : (s.setPc p).index = s.index := rfl
@[simp] theorem State.setPc_stack (p : Word) : (s.setPc p).stack = s.stack := rfl
@[simp] theorem State.setPc_sp (p : Word) : (s.setPc p).sp = s.sp := rfl
@[simp] theorem State.setPc_dt (p : Word) : (s.setPc p).dt = s.dt := rfl
@[simp] theorem State.setPc_st (p : Word) : (s.setPc p).st = s.st := rfl
@[simp] theorem State.setPc_keys (p : Word) : (s.setPc p).keys = s.keys := rfl
@[simp] theorem State.setPc_fb (p : Word) : (s.setPc p).fb = s.fb := rfl
@[simp] theorem State.setPc_mem (p : Word) : (s.setPc p).mem = s.mem := rfl
@[simp] theorem State.setPc_status (p : Word) : (s.setPc p).status = s.status := rfl
@[simp] theorem State.setPc_draws (p : Word) : (s.setPc p).draws = s.draws := rfl

/-! #### advance -/

@[simp] theorem State.advance_v : s.advance.v = s.v := rfl
@[simp] theorem State.advance_pc : s.advance.pc = s.pc + 2 := rfl
@[simp] theorem State.advance_index : s.advance.index = s.index := rfl
@[simp] theorem State.advance_stack : s.advance.stack = s.stack := rfl
@[simp] theorem State.advance_sp : s.advance.sp = s.sp := rfl
@[simp] theorem State.advance_dt : s.advance.dt = s.dt := rfl
@[simp] theorem State.advance_st : s.advance.st = s.st := rfl
@[simp] theorem State.advance_keys : s.advance.keys = s.keys := rfl
@[simp] theorem State.advance_fb : s.advance.fb = s.fb := rfl
@[simp] theorem State.advance_mem : s.advance.mem = s.mem := rfl
@[simp] theorem State.advance_status : s.advance.status = s.status := rfl
@[simp] theorem State.advance_draws : s.advance.draws = s.draws := rfl

/-! #### skipIf -/

@[simp] theorem State.skipIf_v (c : Bool) : (s.skipIf c).v = s.v := rfl
@[simp] theorem State.skipIf_pc (c : Bool) : (s.skipIf c).pc = if c then s.pc + 2 else s.pc := rfl
@[simp] theorem State.skipIf_index (c : Bool) : (s.skipIf c).index = s.index := rfl
@[simp] theorem State.skipIf_stack (c : Bool) : (s.skipIf c).stack = s.stack := rfl
@[simp] theorem State.skipIf_sp (c : Bool) : (s.skipIf c).sp = s.sp := rfl
@[simp] theorem State.skipIf_dt (c : Bool) : (s.skipIf c).dt = s.dt := rfl
@[simp] theorem State.skipIf_st (c : Bool) : (s.skipIf c).st = s.st := rfl
@[simp] theorem State.skipIf_keys (c : Bool) : (s.skipIf c).keys = s.keys := rfl
@[simp] theorem State.skipIf_fb (c : Bool) : (s.skipIf c).fb = s.fb := rfl
@[simp] theorem State.skipIf_mem (c : Bool) : (s.skipIf c).mem = s.mem := rfl
@[simp] theorem State.skipIf_status (c : Bool) : (s.skipIf c).status = s.status := rfl
@[simp] theorem State.skipIf_draws (c : Bool) : (s.skipIf c).draws = s.draws := rfl

/-! #### takeFault -/

@[simp] theorem State.takeFault_v (r : FaultReason) (w : Option Word) (n : Option FaultInfo) : (s.takeFault r w n).v = s.v := rfl
@[simp] theorem State.takeFault_pc (r : FaultReason) (w : Option Word) (n : Option FaultInfo) : (s.takeFault r w n).pc = s.pc := rfl
@[simp] theorem State.takeFault_index (r : FaultReason) (w : Option Word) (n : Option FaultInfo) : (s.takeFault r w n).index = s.index := rfl
@[simp] theorem State.takeFault_stack (r : FaultReason) (w : Option Word) (n : Option FaultInfo) : (s.takeFault r w n).stack = s.stack := rfl
@[simp] theorem State.takeFault_sp (r : FaultReason) (w : Option Word) (n : Option FaultInfo) : (s.takeFault r w n).sp = s.sp := rfl
@[simp] theorem State.takeFault_dt (r : FaultReason) (w : Option Word) (n : Option FaultInfo) : (s.takeFault r w n).dt = s.dt := rfl
@[simp] theorem State.takeFault_st (r : FaultReason) (w : Option Word) (n : Option FaultInfo) : (s.takeFault r w n).st = s.st := rfl
@[simp] theorem State.takeFault_keys (r : FaultReason) (w : Option Word) (n : Option FaultInfo) : (s.takeFault r w n).keys = s.keys := rfl
@[simp] theorem State.takeFault_fb (r : FaultReason) (w : Option Word) (n : Option FaultInfo) : (s.takeFault r w n).fb = s.fb := rfl
@[simp] theorem State.takeFault_mem (r : FaultReason) (w : Option Word) (n : Option FaultInfo) : (s.takeFault r w n).mem = s.mem := rfl
@[simp] theorem State.takeFault_status (r : FaultReason) (w : Option Word) (n : Option FaultInfo) : (s.takeFault r w n).status = .halted ⟨r, s.pc, w, n⟩ := rfl
@[simp] theorem State.takeFault_draws (r : FaultReason) (w : Option Word) (n : Option FaultInfo) : (s.takeFault r w n).draws = s.draws := rfl

/-! #### V registers through the updates -/

@[simp] theorem State.getV_setV_self (x : Reg) (b : Byte) : (s.setV x b).getV x = b := by
  simp [State.getV]

theorem State.getV_setV_of_ne {x y : Reg} (b : Byte) (h : y ≠ x) : (s.setV x b).getV y = s.getV y := by
  have h' : x.val ≠ y.val := fun e => h (Fin.ext e.symm)
  simp [State.getV, State.setV, h']

/-- What a register reads after a write to a register. -/
theorem State.getV_setV (x y : Reg) (b : Byte) : (s.setV x b).getV y = if y = x then b else s.getV y := by
  split
  · next h => subst h; simp
  · next h => exact s.getV_setV_of_ne b h

@[simp] theorem State.getV_setPc (p : Word) (x : Reg) : (s.setPc p).getV x = s.getV x := rfl
@[simp] theorem State.getV_advance (x : Reg) : s.advance.getV x = s.getV x := rfl
@[simp] theorem State.getV_skipIf (c : Bool) (x : Reg) : (s.skipIf c).getV x = s.getV x := rfl
@[simp] theorem State.getV_takeFault (r : FaultReason) (w : Option Word) (n : Option FaultInfo) (x : Reg) :
    (s.takeFault r w n).getV x = s.getV x := rfl

/-- Two states with equal components are equal; the registers and memory as read. -/
theorem State.getV_ext {v w : Vector Byte 16} (h : ∀ x : Reg, v[x] = w[x]) : v = w := by
  apply Vector.ext
  intro k hk
  exact h ⟨k, hk⟩

end Sys2Proof.Machine
end

