-- ==== Sys2Proof/Laws/Ops.lean ====
section
/-! SUPPORT. One lemma for each shared operation: address checks, stack, register blocks, keys, sprite drawing. -/

namespace Sys2Proof.Machine

/-! ### Address checks (60_exceptions.md R205) -/

theorem State.ea_eq (s : State) (k : Nat) : s.ea k = s.index.toNat + k := rfl

theorem State.eas_succ (s : State) (n : Nat) : s.eas (n + 1) = s.eas n ++ [s.ea n] := by
  simp [State.eas, List.range_succ]

theorem firstFault_append (f : Nat → Option FaultCause) (l : List Nat) (a : Nat) :
    firstFault f (l ++ [a]) = (firstFault f l).or (f a) := by
  unfold firstFault
  rw [List.findSome?_append, List.findSome?_singleton]

/-- The whole check of a read of `n` bytes from I on. -/
theorem firstFault_read (s : State) (n : Nat) :
    firstFault readFault (s.eas n) =
      if 1 ≤ n ∧ s.index.toNat + n > 4096 then some ⟨.memoryOutOfBounds, some (.address (max s.index.toNat 4096))⟩
      else none := by
  induction n with
  | zero => simp [State.eas, firstFault]
  | succ n ih =>
    rw [State.eas_succ, firstFault_append, ih]
    by_cases h : 1 ≤ n ∧ s.index.toNat + n > 4096
    · rw [if_pos h, if_pos (by omega)]; rfl
    · rw [if_neg h]
      rw [Option.none_or, State.ea_eq, readFault]
      by_cases h' : s.index.toNat + n > 4095
      · rw [if_pos h', if_pos (by omega)]
        congr 4
        omega
      · rw [if_neg h', if_neg (by omega)]

/-- The whole check of a write of `n ≥ 1` bytes from I on. -/
theorem firstFault_write (s : State) {n : Nat} (hn : 1 ≤ n) :
    firstFault writeFault (s.eas n) =
      if s.index.toNat ≤ 79 then some ⟨.fontWrite, some (.address s.index.toNat)⟩
      else if s.index.toNat + n > 4096 then some ⟨.memoryOutOfBounds, some (.address (max s.index.toNat 4096))⟩
      else none := by
  induction n with
  | zero => omega
  | succ n ih =>
    rw [State.eas_succ, firstFault_append]
    by_cases hn' : 1 ≤ n
    · rw [ih hn']
      by_cases h0 : s.index.toNat ≤ 79
      · rw [if_pos h0, if_pos h0]; rfl
      · rw [if_neg h0, if_neg h0]
        by_cases h : s.index.toNat + n > 4096
        · rw [if_pos h, if_pos (by omega)]; rfl
        · rw [if_neg h]
          rw [Option.none_or, State.ea_eq, writeFault]
          by_cases h' : s.index.toNat + n > 4095
          · rw [if_pos h', if_pos (by omega)]
            congr 4
            omega
          · rw [if_neg h', if_neg (by omega), if_neg (by omega)]
    · have hz : n = 0 := by omega
      subst hz
      rw [show firstFault writeFault (s.eas 0) = none from rfl, Option.none_or, State.ea_eq, Nat.add_zero, writeFault]
      by_cases h0 : s.index.toNat ≤ 79
      · rw [if_pos h0, if_neg (by omega), if_pos h0]
      · rw [if_neg h0]
        by_cases h : s.index.toNat > 4095
        · rw [if_pos h, if_neg h0, if_pos (by omega)]
          congr 4
          omega
        · rw [if_neg h, if_neg h0, if_neg (by omega)]

/-! ### Stack -/

theorem State.push_eq_none (s : State) (w : Word) : s.push w = none ↔ s.sp.val = 16 := by
  unfold State.push
  split <;> simp <;> omega

/-- What a push does when it does something. -/
theorem State.push_eq_some {s t : State} {w : Word} (h : s.push w = some t) :
    ∃ hs : s.sp.val < 16, t = { s with stack := s.stack.set s.sp.val w, sp := ⟨s.sp.val + 1, by omega⟩ } := by
  unfold State.push at h
  split at h
  · next hs => exact ⟨hs, (Option.some.inj h).symm⟩
  · cases h

theorem State.pop_eq_none (s : State) : s.pop = none ↔ s.sp.val = 0 := by
  unfold State.pop
  split <;> simp <;> omega

/-- What a pop does when it does something. -/
theorem State.pop_eq_some {s t : State} {w : Word} (h : s.pop = some (w, t)) :
    ∃ hs : 0 < s.sp.val, w = s.stack[s.sp.val - 1]'(by omega) ∧ t = { s with sp := ⟨s.sp.val - 1, by omega⟩ } := by
  unfold State.pop at h
  split at h
  · next hs =>
    obtain ⟨rfl, rfl⟩ := Prod.mk.inj (Option.some.inj h)
    exact ⟨hs, rfl, rfl⟩
  · cases h

/-! ### Blocks of registers -/

theorem State.length_regsUpTo (s : State) (x : Reg) : (s.regsUpTo x).length = x.val + 1 := by
  simp [State.regsUpTo]

theorem State.getElem_regsUpTo (s : State) (x r : Reg) (h : r.val < (s.regsUpTo x).length) :
    (s.regsUpTo x)[r.val] = s.getV r := by
  simp [State.regsUpTo, State.getV]

/-- What register `r` holds after a block of registers from `k` on is written. -/
theorem getElem_setVFrom (v : Vector Byte 16) (bs : List Byte) (k : Nat) (r : Reg) (hk : k + bs.length ≤ 16) :
    (setVFrom v k bs)[r] =
      if h : k ≤ r.val ∧ r.val < k + bs.length then bs[r.val - k]'(by omega) else v[r] := by
  induction bs generalizing v k with
  | nil => rw [setVFrom, dif_neg (by simp only [List.length_nil]; omega)]
  | cons b bs ih =>
    simp only [List.length_cons] at hk ⊢
    rw [setVFrom, ih _ _ (by omega)]
    by_cases h : k + 1 ≤ r.val ∧ r.val < k + 1 + bs.length
    · rw [dif_pos h, dif_pos (by omega), List.getElem_cons, dif_neg (by omega)]
      congr 1
    · rw [dif_neg h]
      simp only [Fin.getElem_fin, Vector.getElem_setIfInBounds]
      by_cases hr : k = r.val
      · rw [if_pos hr, dif_pos (by omega), List.getElem_cons, dif_pos (by omega)]
      · rw [if_neg hr, dif_neg (by omega)]

/-! ### Keys -/

/-- The key Fx0A captures is pressed and no lower one is. -/
theorem firstKey_eq_some {keys : Vector Bool 16} {k : Fin 16} :
    firstKey keys = some k ↔ keys[k] = true ∧ ∀ j : Fin 16, j < k → keys[j] = false := by
  unfold firstKey
  rw [List.find?_eq_some_iff_getElem]
  constructor
  · rintro ⟨h, i, hi, he, hj⟩
    have hik : i = k.val := by
      rw [← he]; simp
    subst hik
    refine ⟨by simpa using h, fun j hjk => ?_⟩
    have := hj j.val hjk
    simpa using this
  · rintro ⟨h, hj⟩
    refine ⟨by simpa using h, k.val, by simp, by simp, fun j hjk => ?_⟩
    have := hj ⟨j, by omega⟩ hjk
    simpa using this

theorem firstKey_eq_none {keys : Vector Bool 16} : firstKey keys = none ↔ ∀ k : Fin 16, keys[k] = false := by
  unfold firstKey
  rw [List.find?_eq_none]
  simp

theorem keyIndex_eq_some {b : Byte} {k : Fin 16} : keyIndex b = some k ↔ b.toNat = k.val := by
  unfold keyIndex
  split
  · simp [Fin.ext_iff]
  · simp; omega

theorem keyIndex_eq_none {b : Byte} : keyIndex b = none ↔ b.toNat > 15 := by
  unfold keyIndex
  split <;> simp <;> omega

/-! ### Sprite drawing (43_graphics.md R171 to R173) -/

theorem pixel_toggle (fb : Framebuffer) (r r' : Fin 32) (c c' : Fin 64) :
    pixel (toggle fb r c) r' c' = if r' = r ∧ c' = c then !pixel fb r c else pixel fb r' c' := by
  simp only [pixel, toggle, Fin.getElem_fin, Vector.getElem_set, Fin.ext_iff]
  by_cases hr : r.val = r'.val
  · by_cases hc : c.val = c'.val
    · simp [hr, hc]
    · simp [hr, hc, Ne.symm hc]
  · simp [hr, Ne.symm hr]

end Sys2Proof.Machine
end

