-- ==== Sys2Proof/Laws/Drawing.lean ====
section
/-! SUPPORT. What drawing a sprite does to each pixel and to the collision flag (43_graphics.md R171, R173). -/

namespace Sys2Proof.Machine

/-- One of the first `n` columns of a sprite row has its bit set and lands on screen column `col`. -/
def ColCovers (cx : Nat) (b : Byte) (n : Nat) (col : Fin 64) : Prop :=
  ∃ k, k < n ∧ spriteBit b k = true ∧ col = Fin.ofNat 64 (cx + k)

theorem colCovers_succ (cx : Nat) (b : Byte) (n : Nat) (col : Fin 64) :
    ColCovers cx b (n + 1) col ↔
      ColCovers cx b n col ∨ (spriteBit b n = true ∧ col = Fin.ofNat 64 (cx + n)) := by
  constructor
  · rintro ⟨k, hk, hb, hc⟩
    rcases Nat.lt_or_ge k n with h | h
    · exact .inl ⟨k, h, hb, hc⟩
    · obtain rfl : k = n := by omega
      exact .inr ⟨hb, hc⟩
  · rintro (⟨k, hk, hb, hc⟩ | ⟨hb, hc⟩)
    · exact ⟨k, by omega, hb, hc⟩
    · exact ⟨n, by omega, hb, hc⟩

/-- Within a row the columns are distinct, because 8 < 64 (R173). -/
theorem not_colCovers_next {cx n : Nat} (b : Byte) (hn : n < 8) : ¬ColCovers cx b n (Fin.ofNat 64 (cx + n)) := by
  rintro ⟨k, hk, -, hc⟩
  have := congrArg Fin.val hc
  simp only [Fin.val_ofNat] at this
  omega

/-- What a drawing did, from canvas `cv` to `cv'`: the pixels of `cov` are inverted, all others stay, and the flag is
raised when one of them was lit. -/
structure Drawn (cov : Fin 32 → Fin 64 → Prop) (cv cv' : Canvas) : Prop where
  inverted : ∀ r c, cov r c → pixel cv'.1 r c = !pixel cv.1 r c
  kept : ∀ r c, ¬cov r c → pixel cv'.1 r c = pixel cv.1 r c
  hit : cv'.2 = true ↔ cv.2 = true ∨ ∃ r c, cov r c ∧ pixel cv.1 r c = true

theorem Drawn.congr {cov cov' : Fin 32 → Fin 64 → Prop} {cv cv' : Canvas} (h : Drawn cov cv cv')
    (e : ∀ r c, cov r c ↔ cov' r c) : Drawn cov' cv cv' := by
  obtain rfl : cov = cov' := by funext r c; exact propext (e r c)
  exact h

theorem drawn_nothing (cv : Canvas) : Drawn (fun _ _ => False) cv cv where
  inverted := fun _ _ h => h.elim
  kept := fun _ _ _ => rfl
  hit := by simp

/-- Two drawings over disjoint pixels are one drawing over their union. -/
theorem Drawn.trans {p q : Fin 32 → Fin 64 → Prop} {a b c : Canvas} (h : Drawn p a b) (g : Drawn q b c)
    (disj : ∀ r k, p r k → ¬q r k) : Drawn (fun r k => p r k ∨ q r k) a c where
  inverted := by
    rintro r k (hp | hq)
    · rw [g.kept r k (disj r k hp), h.inverted r k hp]
    · rw [g.inverted r k hq, h.kept r k fun hp => disj r k hp hq]
  kept := by
    intro r k hn
    rw [g.kept r k fun hq => hn (.inr hq), h.kept r k fun hp => hn (.inl hp)]
  hit := by
    rw [g.hit, h.hit]
    constructor
    · rintro ((h1 | ⟨r, k, hp, hl⟩) | ⟨r, k, hq, hl⟩)
      · exact .inl h1
      · exact .inr ⟨r, k, .inl hp, hl⟩
      · rw [h.kept r k fun hp => disj r k hp hq] at hl
        exact .inr ⟨r, k, .inr hq, hl⟩
    · rintro (h1 | ⟨r, k, hp | hq, hl⟩)
      · exact .inl (.inl h1)
      · exact .inl (.inr ⟨r, k, hp, hl⟩)
      · refine .inr ⟨r, k, hq, ?_⟩
        rwa [h.kept r k fun hp => disj r k hp hq]

theorem drawn_plot (row : Fin 32) (col : Fin 64) (cv : Canvas) :
    Drawn (fun r c => r = row ∧ c = col) cv (plot row col cv) where
  inverted := by
    rintro r c ⟨rfl, rfl⟩
    simp [plot, pixel_toggle]
  kept := by
    intro r c h
    simp only [plot, pixel_toggle, if_neg h]
  hit := by simp [plot]

/-- One sprite row. -/
theorem drawn_drawRow (cx : Nat) (row : Fin 32) (b : Byte) (cv : Canvas) :
    Drawn (fun r c => r = row ∧ ColCovers cx b 8 c) cv (drawRow cx row b cv) := by
  suffices H : ∀ n, n ≤ 8 → Drawn (fun r c => r = row ∧ ColCovers cx b n c) cv ((List.range n).foldl
      (fun acc c => if spriteBit b c then plot row (Fin.ofNat 64 (cx + c)) acc else acc) cv) from H 8 (Nat.le_refl 8)
  intro n
  induction n with
  | zero =>
    intro _
    refine (drawn_nothing cv).congr fun r c => ⟨False.elim, ?_⟩
    rintro ⟨-, k, hk, -⟩
    omega
  | succ n ih =>
    intro hn
    have h := ih (by omega)
    rw [List.range_succ, List.foldl_append, List.foldl_cons, List.foldl_nil]
    by_cases hb : spriteBit b n = true
    · rw [if_pos hb]
      refine (h.trans (drawn_plot row (Fin.ofNat 64 (cx + n)) _) ?_).congr fun r c => ?_
      · rintro r c ⟨-, hc⟩ ⟨-, rfl⟩
        exact not_colCovers_next b (by omega) hc
      · simp only [colCovers_succ, hb, true_and]
        tauto
    · rw [if_neg hb]
      refine h.congr fun r c => ?_
      simp [colCovers_succ, hb]

/-- A set bit of one of the sprite rows `bs`, drawn from screen row `cy` on, lands on this pixel. -/
def RowsCover (cx cy : Nat) (bs : List Byte) (r : Fin 32) (c : Fin 64) : Prop :=
  ∃ j b, bs[j]? = some b ∧ r = Fin.ofNat 32 (cy + j) ∧ ColCovers cx b 8 c

/-- A whole sprite of at most 32 rows: its rows are distinct (R173). -/
theorem drawn_drawRows (cx cy : Nat) (bs : List Byte) (cv : Canvas) (hb : bs.length ≤ 32) :
    Drawn (RowsCover cx cy bs) cv (drawRows cx cy bs cv) := by
  induction bs generalizing cy cv with
  | nil => exact (drawn_nothing cv).congr fun r c => ⟨False.elim, by rintro ⟨j, b, h, -⟩; simp at h⟩
  | cons b bs ih =>
    simp only [List.length_cons] at hb
    refine ((drawn_drawRow cx (Fin.ofNat 32 cy) b cv).trans (ih (cy + 1) _ (by omega)) ?_).congr fun r c => ?_
    · rintro r c ⟨hr, -⟩ ⟨j, b', hj, hr', -⟩
      have hlt : j < bs.length := by
        have := List.getElem?_eq_some_iff.mp hj
        exact this.1
      have e := congrArg Fin.val (hr.symm.trans hr')
      simp only [Fin.val_ofNat] at e
      omega
    · constructor
      · rintro (⟨hr, hc⟩ | ⟨j, b', hj, hr, hc⟩)
        · exact ⟨0, b, rfl, by simpa using hr, hc⟩
        · exact ⟨j + 1, b', by simpa using hj, by rw [hr]; congr 1; omega, hc⟩
      · rintro ⟨j, b', hj, hr, hc⟩
        cases j with
        | zero =>
          obtain rfl : b = b' := by simpa using hj
          exact .inl ⟨by simpa using hr, hc⟩
        | succ j => exact .inr ⟨j, b', by simpa using hj, by rw [hr]; congr 1; omega, hc⟩

end Sys2Proof.Machine
end

