-- ==== Sys2Proof/Laws/Step.lean ====
section
/-! SUPPORT. What a meaning and a step can do, said once: the inversion lemmas later proofs cite. -/

namespace Sys2Proof.Machine

/-- A raised fault is the state before the instruction, halted. -/
theorem raise_eq_next {i : Instr} {c : FaultCause} {s t : State} :
    raise i c s = .next t ↔ t = s.takeFault c.reason (some (encode i)) c.info := by
  simp [raise, eq_comm]

/-- Everything a store through I can do (42_memory_index.md R154, R155). -/
theorem storeAtI_cases {i : Instr} {bs : List Byte} {s t : State} (h : storeAtI i bs s = .next t) :
    (∃ c, firstFault writeFault (s.eas bs.length) = some c ∧ t = s.takeFault c.reason (some (encode i)) c.info) ∨
    (firstFault writeFault (s.eas bs.length) = none ∧
      t = { s.advance with mem := s.mem.writeBytes (s.ea 0) bs }) := by
  unfold storeAtI at h
  split at h
  · next c hc => exact .inl ⟨c, hc, raise_eq_next.mp h⟩
  · next hc => exact .inr ⟨hc, by injection h with h; exact h.symm⟩

/-- Everything Fx65 can do (R156). -/
theorem execLoadRegs_cases {x : Reg} {s t : State} (h : execLoadRegs x s = .next t) :
    (∃ c, firstFault readFault (s.eas (x.val + 1)) = some c ∧
      t = s.takeFault c.reason (some (encode (.loadRegs x))) c.info) ∨
    (firstFault readFault (s.eas (x.val + 1)) = none ∧
      t = { s.advance with v := setVFrom s.v 0 (s.mem.readBytes (s.ea 0) (x.val + 1)) }) := by
  unfold execLoadRegs at h
  split at h
  · next c hc => exact .inl ⟨c, hc, raise_eq_next.mp h⟩
  · next hc => exact .inr ⟨hc, by injection h with h; exact h.symm⟩

/-- Everything Dxyn can do (43_graphics.md R171). -/
theorem execDrw_cases {x y : Reg} {n : BitVec 4} {s t : State} (h : execDrw x y n s = .next t) :
    (∃ c, firstFault readFault (s.eas n.toNat) = some c ∧
      t = s.takeFault c.reason (some (encode (.drw x y n))) c.info) ∨
    (firstFault readFault (s.eas n.toNat) = none ∧ ∃ cv : Canvas,
      cv = drawRows (s.getV x).toNat (s.getV y).toNat (s.mem.readBytes (s.ea 0) n.toNat) (s.fb, false) ∧
      t = ({ s.advance with fb := cv.1 }.setV VF (flagByte cv.2))) := by
  unfold execDrw at h
  split at h
  · next c hc => exact .inl ⟨c, hc, raise_eq_next.mp h⟩
  · next hc => exact .inr ⟨hc, _, rfl, by injection h with h; exact h.symm⟩

/-- Everything Ex9E and ExA1 can do (44_timer_input.md R180, R181). -/
theorem skipOnKey_cases {i : Instr} {x : Reg} {p : Bool} {s t : State} (h : skipOnKey i x p s = .next t) :
    ((s.getV x).toNat > 15 ∧ t = s.takeFault .keyIndexOutOfRange (some (encode i)) (some (.key (s.getV x)))) ∨
    (∃ k : Fin 16, (s.getV x).toNat = k.val ∧ t = s.advance.skipIf (s.keys[k] == p)) := by
  unfold skipOnKey at h
  split at h
  · next hk => exact .inl ⟨keyIndex_eq_none.mp hk, raise_eq_next.mp h⟩
  · next k hk => exact .inr ⟨k, keyIndex_eq_some.mp hk, by injection h with h; exact h.symm⟩

/-- Everything Fx0A can do (R185). -/
theorem execLdVxK_cases {x : Reg} {s t : State} (h : execLdVxK x s = .next t) :
    (∃ k : Fin 16, s.keys[k] = true ∧ (∀ j : Fin 16, j < k → s.keys[j] = false) ∧ t = s.advance.setV x (keyByte k)) ∨
    ((∀ k : Fin 16, s.keys[k] = false) ∧ t = s) := by
  unfold execLdVxK at h
  split at h
  · next k hk =>
    obtain ⟨h1, h2⟩ := firstKey_eq_some.mp hk
    exact .inl ⟨k, h1, h2, by injection h with h; exact h.symm⟩
  · next hk =>
    refine .inr ⟨firstKey_eq_none.mp hk, ?_⟩
    injection h with h
    subst h
    simp [State.setPc, State.advance]

/-- Everything 2nnn can do (40_control_flow.md R112). -/
theorem execCall_cases {nnn : Addr12} {s t : State} (h : execCall nnn s = .next t) :
    (s.sp.val = 16 ∧ t = s.takeFault .stackOverflow (some (encode (.call nnn))) none) ∨
    (∃ hs : s.sp.val < 16, t = { s with
      stack := s.stack.set s.sp.val (s.pc + 2), sp := ⟨s.sp.val + 1, by omega⟩, pc := immAddr nnn }) := by
  unfold execCall at h
  split at h
  · next hp => exact .inl ⟨(s.push_eq_none _).mp hp, raise_eq_next.mp h⟩
  · next u hp =>
    obtain ⟨hs, rfl⟩ := State.push_eq_some hp
    exact .inr ⟨hs, by injection h with h; exact h.symm⟩

/-- Everything 00EE can do (R110). -/
theorem execRet_cases {s t : State} (h : execRet s = .next t) :
    (s.sp.val = 0 ∧ t = s.takeFault .stackUnderflow (some (encode .ret)) none) ∨
    (∃ hs : 0 < s.sp.val, t = { s with
      sp := ⟨s.sp.val - 1, by omega⟩, pc := s.stack[s.sp.val - 1]'(by omega) }) := by
  unfold execRet at h
  split at h
  · next hp => exact .inl ⟨s.pop_eq_none.mp hp, raise_eq_next.mp h⟩
  · next w u hp =>
    obtain ⟨hs, rfl, rfl⟩ := State.pop_eq_some hp
    exact .inr ⟨hs, by injection h with h; exact h.symm⟩

/-- The two shifts keep every component but V and pc. -/
theorem shiftReg_status {p : ShiftVfResult} {d : ShiftDir} {x : Reg} {s t : State} (h : shiftReg p d x s = .next t) :
    t.status = s.status := by
  unfold shiftReg at h
  split at h <;> (injection h with h; subst h; rfl)

/-- An instruction either takes a fault, or leaves the status alone (60_exceptions.md R201). -/
theorem exec_takeFault_or_status {i : Instr} {s t : State} (h : exec i s = .next t) :
    (∃ c : FaultCause, t = s.takeFault c.reason (some (encode i)) c.info) ∨ t.status = s.status := by
  cases i <;> simp only [exec] at h
  case ret =>
    rcases execRet_cases h with ⟨-, rfl⟩ | ⟨_, rfl⟩
    · exact .inl ⟨⟨_, _⟩, rfl⟩
    · exact .inr rfl
  case call =>
    rcases execCall_cases h with ⟨-, rfl⟩ | ⟨_, rfl⟩
    · exact .inl ⟨⟨_, _⟩, rfl⟩
    · exact .inr rfl
  case drw =>
    rcases execDrw_cases h with ⟨c, -, rfl⟩ | ⟨_, cv, _, rfl⟩
    · exact .inl ⟨c, rfl⟩
    · exact .inr rfl
  case skp =>
    rcases skipOnKey_cases h with ⟨-, rfl⟩ | ⟨k, _, rfl⟩
    · exact .inl ⟨⟨_, _⟩, rfl⟩
    · exact .inr rfl
  case sknp =>
    rcases skipOnKey_cases h with ⟨-, rfl⟩ | ⟨k, _, rfl⟩
    · exact .inl ⟨⟨_, _⟩, rfl⟩
    · exact .inr rfl
  case ldB =>
    rcases storeAtI_cases h with ⟨c, -, rfl⟩ | ⟨_, rfl⟩
    · exact .inl ⟨c, rfl⟩
    · exact .inr rfl
  case storeRegs =>
    rcases storeAtI_cases h with ⟨c, -, rfl⟩ | ⟨_, rfl⟩
    · exact .inl ⟨c, rfl⟩
    · exact .inr rfl
  case loadRegs =>
    rcases execLoadRegs_cases h with ⟨c, -, rfl⟩ | ⟨_, rfl⟩
    · exact .inl ⟨c, rfl⟩
    · exact .inr rfl
  case ldVxK => rcases execLdVxK_cases h with ⟨k, _, _, rfl⟩ | ⟨_, rfl⟩ <;> exact .inr rfl
  case shr => exact .inr (shiftReg_status h)
  case shl => exact .inr (shiftReg_status h)
  all_goals (injection h with h; subst h; exact .inr rfl)

/-- Everything a step can do (30_encoding.md R93, R95). -/
theorem step_cases {s t : State} (h : step s = .next t) :
    s.status = .running ∧
    ((s.pc.toNat > 4094 ∧ t = s.takeFault .fetchOutOfBounds none none) ∨
     (∃ w, s.fetch = some w ∧ decodeWord w = none ∧ t = s.takeFault .decodeError (some w) none) ∨
     (∃ w i, s.fetch = some w ∧ decodeWord w = some i ∧ exec i s = .next t)) := by
  unfold step at h
  split at h
  · cases h
  · next hr =>
    refine ⟨hr, ?_⟩
    split at h
    · next hf =>
      refine .inl ⟨?_, by injection h with h; exact h.symm⟩
      unfold State.fetch at hf
      split at hf
      · assumption
      · cases hf
    · next w hf =>
      split at h
      · next hd => exact .inr (.inl ⟨w, hf, hd, by injection h with h; exact h.symm⟩)
      · next i hd => exact .inr (.inr ⟨w, i, hf, hd, h⟩)

/-- A fetch succeeds exactly when pc ≤ 4094, and gives the two bytes there (20_memory.md R57). -/
theorem State.fetch_eq (s : State) (h : s.pc.toNat ≤ 4094) :
    s.fetch = some (joinBytes (s.mem.read s.pc.toNat) (s.mem.read (s.pc.toNat + 1))) := by
  rw [State.fetch, if_neg (by simp only [Config.maxFetchPc]; omega)]

theorem State.fetch_eq_none (s : State) (h : s.pc.toNat > 4094) : s.fetch = none := by
  rw [State.fetch, if_pos (by simpa using h)]

/-- Memory after an instruction: as it was, or with bytes stored from I on whose addresses all passed their checks. -/
theorem exec_mem_cases {i : Instr} {s t : State} (h : exec i s = .next t) :
    t.mem = s.mem ∨ ∃ bs, 1 ≤ bs.length ∧ firstFault writeFault (s.eas bs.length) = none ∧
      t.mem = s.mem.writeBytes (s.ea 0) bs := by
  cases i <;> simp only [exec] at h
  case ret => rcases execRet_cases h with ⟨-, rfl⟩ | ⟨_, rfl⟩ <;> simp
  case call => rcases execCall_cases h with ⟨-, rfl⟩ | ⟨_, rfl⟩ <;> simp
  case drw => rcases execDrw_cases h with ⟨c, -, rfl⟩ | ⟨_, cv, _, rfl⟩ <;> simp
  case skp => rcases skipOnKey_cases h with ⟨-, rfl⟩ | ⟨k, _, rfl⟩ <;> simp
  case sknp => rcases skipOnKey_cases h with ⟨-, rfl⟩ | ⟨k, _, rfl⟩ <;> simp
  case ldB =>
    rcases storeAtI_cases h with ⟨c, -, rfl⟩ | ⟨hf, rfl⟩
    · simp
    · exact .inr ⟨_, by simp [bcdDigits], hf, rfl⟩
  case storeRegs =>
    rcases storeAtI_cases h with ⟨c, -, rfl⟩ | ⟨hf, rfl⟩
    · simp
    · exact .inr ⟨_, by rw [State.length_regsUpTo]; omega, hf, rfl⟩
  case loadRegs => rcases execLoadRegs_cases h with ⟨c, -, rfl⟩ | ⟨_, rfl⟩ <;> simp
  case ldVxK => rcases execLdVxK_cases h with ⟨k, _, _, rfl⟩ | ⟨_, rfl⟩ <;> simp
  case shr => unfold execShr shiftReg at h; split at h <;> (injection h with h; subst h; simp)
  case shl => unfold execShl shiftReg at h; split at h <;> (injection h with h; subst h; simp)
  all_goals (injection h with h; subst h; simp [addIndex, rndWith])

end Sys2Proof.Machine
end

