-- ==== Sys2Proof/Laws/Frames.lean ====
section
/-! SUPPORT. Frames (30_encoding.md R96) of the shapes that meanings share. -/

namespace Sys2Proof.Machine

/-- A taken fault changes the status and nothing else (60_exceptions.md R201). -/
theorem haltedFrom_takeFault (s : State) (c : FaultReason) (w : Option Word) (n : Option FaultInfo) :
    HaltedFrom s c w n (s.takeFault c w n) := by
  refine ⟨rfl, ?_, fun r _ => rfl⟩
  intro p hp
  cases p <;> simp_all [Part.Same]

/-- Only pc. -/
theorem onlyChanges_pc (s : State) (p : Word) : OnlyChanges [.pc] [] s { s with pc := p } := by
  refine ⟨?_, fun r _ => rfl⟩
  intro q hq
  cases q <;> simp_all [Part.Same]

/-- pc and the V registers `rs`. -/
theorem onlyChanges_pc_v (s : State) (p : Word) {v : Vector Byte 16} {rs : List Reg}
    (h : ∀ r : Reg, r ∉ rs → v[r] = s.v[r]) : OnlyChanges [.pc] rs s { s with pc := p, v := v } := by
  refine ⟨?_, h⟩
  intro q hq
  cases q <;> simp_all [Part.Same]

/-- A frame may be weakened. -/
theorem OnlyChanges.mono {ps ps' : List Part} {rs rs' : List Reg} {s t : State} (h : OnlyChanges ps rs s t)
    (hp : ∀ p, p ∈ ps → p ∈ ps') (hr : ∀ r, r ∈ rs → r ∈ rs') : OnlyChanges ps' rs' s t :=
  ⟨fun p hn => h.1 p fun hm => hn (hp p hm), fun r hn => h.2 r fun hm => hn (hr r hm)⟩

end Sys2Proof.Machine
end

