-- ==== Sys2Proof/Laws/HostOps.lean ====
section
/-! SUPPORT. Small lemmas about the parts of the host operations: vectors, fields and the screen of a record, ticks, keys. -/

namespace Sys2Proof.Machine

/-- A list of the right length becomes the vector it lists. -/
theorem vectorOf_eq {α : Type} {n : Nat} {l : List α} (h : l.length = n) :
    ∃ v : Vector α n, vectorOf n l = some v ∧ v.toList = l := by
  unfold vectorOf
  rw [dif_pos h]
  exact ⟨_, rfl, by simp⟩

/-- Only a list of the right length does. -/
theorem vectorOf_eq_some {α : Type} {n : Nat} {l : List α} {v : Vector α n} (h : vectorOf n l = some v) :
    l.length = n ∧ v.toList = l := by
  unfold vectorOf at h
  split at h
  · injection h with h
    subst h
    simp_all
  · cases h

theorem vectorOf_toList {α : Type} {n : Nat} (v : Vector α n) : vectorOf n v.toList = some v := by
  obtain ⟨w, hw, e⟩ := vectorOf_eq (l := v.toList) (n := n) (by simp)
  rw [hw, Vector.toList_inj.mp e]

theorem bytesField_eq_some {n : Nat} {o : Option FieldValue} {v : Vector Byte n} :
    bytesField n o = some v ↔ ∃ l, o = some (.bytes l) ∧ vectorOf n l = some v := by
  unfold bytesField
  split <;> simp_all

theorem wordsField_eq_some {n : Nat} {o : Option FieldValue} {v : Vector Word n} :
    wordsField n o = some v ↔ ∃ l, o = some (.words l) ∧ vectorOf n l = some v := by
  unfold wordsField
  split <;> simp_all

theorem boolsField_eq_some {n : Nat} {o : Option FieldValue} {v : Vector Bool n} :
    boolsField n o = some v ↔ ∃ l, o = some (.bools l) ∧ vectorOf n l = some v := by
  unfold boolsField
  split <;> simp_all

theorem num8Field_eq_some {o : Option FieldValue} {b : Byte} : num8Field o = some b ↔ o = some (.num8 b) := by
  unfold num8Field
  split <;> simp_all

theorem num16Field_eq_some {o : Option FieldValue} {w : Word} : num16Field o = some w ↔ o = some (.num16 w) := by
  unfold num16Field
  split <;> simp_all

theorem num32Field_eq_some {o : Option FieldValue} {w : BitVec 32} : num32Field o = some w ↔ o = some (.num32 w) := by
  unfold num32Field
  split <;> simp_all

theorem spOf_eq_some {b : Byte} {k : Fin 17} : spOf b = some k ↔ b.toNat = k.val := by
  unfold spOf
  split
  · simp [Fin.ext_iff]
  · simp
    omega

/-- The whole of what `toState` accepts and gives, field by field (60_exceptions.md R227). -/
theorem toState_eq_some {r : PersistedRecord} {d : Nat} {t : State} {f : BitVec 32} :
    r.toState d = some (t, f) ↔
      r.unknown = [] ∧ ∃ mem, bytesField 4096 r.memory = some mem ∧ wordsField 16 r.stack = some t.stack ∧
        bytesField 16 r.v = some t.v ∧ boolsField 16 r.keys = some t.keys ∧
        (∃ screen, boolsField 2048 r.screen = some screen ∧ t.fb = screenOf screen.toList) ∧
        num16Field r.i = some t.index ∧ num16Field r.pc = some t.pc ∧ (num8Field r.sp).bind spOf = some t.sp ∧
        num8Field r.delayTimer = some t.dt ∧ num8Field r.soundTimer = some t.st ∧ num32Field r.fps = some f ∧
        t.mem = Memory.ofBytes 0 mem.toList ∧ t.status = .running ∧ t.draws = d := by
  simp only [PersistedRecord.toState, Option.bind_eq_bind, Option.bind_eq_some_iff, guard]
  constructor
  · rintro ⟨_, h0, mem, hm, stk, hs, v, hv, k, hk, scr, hsc, i, hi, pc, hpc, sp, hsp, dt, hdt, st, hst, fps, hf, e⟩
    have h0' : r.unknown = [] := by
      by_contra hn
      simp [hn] at h0
    injection e with e
    injection e with e1 e2
    subst e1 e2
    exact ⟨h0', mem, hm, hs, hv, hk, ⟨scr, hsc, rfl⟩, hi, hpc, hsp, hdt, hst, hf, rfl, rfl,
      rfl⟩
  · rintro ⟨h0, mem, hm, hs, hv, hk, ⟨scr, hsc, hfb⟩, hi, hpc, hsp, hdt, hst, hf, e1, e2, e3⟩
    refine ⟨(), by rw [if_pos h0]; rfl, mem, hm, _, hs, _, hv, _, hk, scr, hsc, _, hi, _, hpc, _, hsp, _, hdt, _, hst, _, hf, ?_⟩
    rw [← hfb, ← e1, ← e2, ← e3]

/-- The screen of a framebuffer gives the framebuffer back. -/
theorem screenOf_screenBits (fb : Framebuffer) : screenOf (screenBits fb) = fb := by
  apply Vector.ext
  intro r hr
  apply Vector.ext
  intro c hc
  simp only [screenOf, Vector.getElem_ofFn, screenBits]
  rw [List.getD_eq_getElem?_getD, List.getElem?_map, List.getElem?_range (by omega)]
  have h1 : (r * 64 + c) / 64 = r := by omega
  have h2 : (r * 64 + c) % 64 = c := by omega
  simp only [Option.map_some, Option.getD_some, pixel, h1, h2, Fin.getElem_fin, Fin.val_ofNat, Nat.mod_eq_of_lt hr,
    Nat.mod_eq_of_lt hc]

/-- A screen of 2048 cells is the screen of its framebuffer. -/
theorem screenBits_screenOf {l : List Bool} (h : l.length = 2048) : screenBits (screenOf l) = l := by
  apply List.ext_getElem
  · simp [screenBits, h]
  · intro k h1 h2
    simp only [screenBits, List.getElem_map, List.getElem_range, pixel, screenOf, Fin.getElem_fin, Vector.getElem_ofFn,
      Fin.val_ofNat]
    rw [List.getD_eq_getElem?_getD, show k / 64 % 32 * 64 + k % 64 % 64 = k by omega, List.getElem?_eq_getElem h2]
    rfl

/-- The memory `initialize` makes is canonical, whatever FONT is. -/
theorem wf_resetWith (font : Config.Font) : (State.resetWith font).mem.wf = true :=
  Memory.wf_ofBytes _ (by simp)

/-- It reads as FONT at 0..79 (10_state.md R37). -/
theorem read_resetWith (font : Config.Font) (a : Fin 80) : (State.resetWith font).mem.read a.val = font[a] := by
  have e := Memory.read_ofBytes font.toList (a := 0) (k := a.val) (by simp) (by simp)
  rw [Nat.zero_add] at e
  exact e.trans (by simp)

/-- It reads as 0 from 80 on. -/
theorem read_resetWith_above (font : Config.Font) {a : Nat} (h : 80 ≤ a) : (State.resetWith font).mem.read a = 0 := by
  have e : fontImage[a]? = none := List.getElem?_eq_none h
  rw [State.resetWith, Memory.read_ofBytes_above font.toList (by simpa using h), resetByte, List.getD_eq_getElem?_getD, e,
    Option.getD_none]

/-- `State.reset` is the reset state of the default FONT (R23). -/
theorem resetWith_defaultFont : State.resetWith defaultFont = State.reset := by
  have e : Memory.ofBytes 0 defaultFont.toList = [] := by decide
  rw [State.resetWith, e]
  rfl

/-- Everything a call can do that neither executes nor replaces the machine or the program (60_exceptions.md R230). -/
theorem hostStep_driver_cases {font : Config.Font} {op : HostOp} {s : State} (hr : s.status = .running)
    (h1 : op ≠ .executeOne) (h2 : op ≠ .initMachine) (h3 : ∀ bytes, op ≠ .loadProgram bytes) (h4 : ∀ r, op ≠ .restore r) :
    ∃ t a, hostStep font op s = .next (t, a) ∧
      (t = s ∨ (op = .advanceTimers ∧ t = s.ticked) ∨ ∃ k p, op = .setKey k p ∧ t = s.withKey k p) := by
  unfold hostStep
  rw [hr]
  cases op with
  | executeOne => exact absurd rfl h1
  | initMachine => exact absurd rfl h2
  | loadProgram bytes => exact absurd rfl (h3 bytes)
  | restore r => exact absurd rfl (h4 r)
  | advanceTimers => exact ⟨_, _, rfl, .inr (.inl ⟨rfl, rfl⟩)⟩
  | setKey k p => exact ⟨_, _, rfl, .inr (.inr ⟨k, p, rfl, rfl⟩)⟩
  | readFramebuffer => exact ⟨_, _, rfl, .inl rfl⟩
  | snapshot fps => exact ⟨_, _, rfl, .inl rfl⟩

/-- The state an execution by the host leaves is the one the step leaves (R230, 30_encoding.md R93). -/
theorem hostStep_executeOne {font : Config.Font} {s t : State} (hr : s.status = .running) (h : step s = .next t) :
    hostStep font .executeOne s = .next (t, reportOf t) := by
  unfold hostStep
  rw [hr]
  simp only [runningOp, h]

/-- A tick takes one, and stops at 0 (60_exceptions.md R220). -/
theorem toNat_tick (b : Byte) : (tick b).toNat = b.toNat - 1 := by
  revert b
  decide

/-- `set_key` writes nothing but the latches (R223). -/
theorem withKey_keepsRest (s : State) (k : Option Nat) (p : Bool) : s.withKey k p = { s with keys := (s.withKey k p).keys } := by
  unfold State.withKey
  split
  · split <;> rfl
  · rfl

/-- Each latch after `set_key` (R223). -/
theorem withKey_keys (s : State) (k : Option Nat) (p : Bool) (j : Fin 16) :
    (s.withKey k p).keys[j] = if k = some j.val then p else s.keys[j] := by
  unfold State.withKey
  cases k with
  | none => simp
  | some m =>
    simp only
    split
    · simp [Vector.getElem_set]
    · have : m ≠ j.val := by omega
      simp [this]

end Sys2Proof.Machine
end

