-- ==== Sys2Proof/Laws/PerInstr.lean ====
section
/-! SUPPORT. Statements for all instructions, one lemma per constructor. Family EncodesLegal: an instruction's word is one
that the constraints of 30_encoding.md R85 allow. -/

namespace Sys2Proof.Laws.EncodesLegal

/-- The encoding of an instruction is a legal word by R85. -/
def Statement (i : Instr) : Prop := legalWord (encode i) = true

/-- The top nibble as `legalWord` reads it. -/
theorem top_ofNibbles (d3 d2 d1 d0 : BitVec 4) : (ofNibbles d3 d2 d1 d0).extractLsb' 12 4 = d3 :=
  nibble3_ofNibbles d3 d2 d1 d0

/-- The fourth nibble as `legalWord` reads it. -/
theorem low_ofNibbles (d3 d2 d1 d0 : BitVec 4) : (ofNibbles d3 d2 d1 d0).extractLsb' 0 4 = d0 :=
  nibble0_ofNibbles d3 d2 d1 d0

theorem top_ofXkk (op : BitVec 4) (x : Reg) (kk : Byte) : (ofXkk op x kk).extractLsb' 12 4 = op := by
  rw [ofXkk_eq, top_ofNibbles]

theorem top_ofNnn (op : BitVec 4) (nnn : Addr12) : (ofNnn op nnn).extractLsb' 12 4 = op := by
  rw [ofNnn_eq, top_ofNibbles]

theorem lowByte_ofXkk (op : BitVec 4) (x : Reg) (kk : Byte) : (ofXkk op x kk).extractLsb' 0 8 = kk :=
  fieldKk_ofXkk op x kk

theorem cls : Statement .cls := by unfold Statement; decide

theorem ret : Statement .ret := by unfold Statement; decide

theorem jp (nnn : Addr12) : Statement (.jp nnn) := by
  simp [Statement, encode, legalWord, top_ofNnn]

theorem call (nnn : Addr12) : Statement (.call nnn) := by
  simp [Statement, encode, legalWord, top_ofNnn]

theorem seImm (x : Reg) (kk : Byte) : Statement (.seImm x kk) := by
  simp [Statement, encode, legalWord, top_ofXkk]

theorem sneImm (x : Reg) (kk : Byte) : Statement (.sneImm x kk) := by
  simp [Statement, encode, legalWord, top_ofXkk]

theorem seReg (x y : Reg) : Statement (.seReg x y) := by
  simp [Statement, encode, legalWord, legalLow0, ofXyn, top_ofNibbles, low_ofNibbles]

theorem ldImm (x : Reg) (kk : Byte) : Statement (.ldImm x kk) := by
  simp [Statement, encode, legalWord, top_ofXkk]

theorem addImm (x : Reg) (kk : Byte) : Statement (.addImm x kk) := by
  simp [Statement, encode, legalWord, top_ofXkk]

theorem ldReg (x y : Reg) : Statement (.ldReg x y) := by
  simp [Statement, encode, legalWord, legalLow8, ofXyn, top_ofNibbles, low_ofNibbles]

theorem orReg (x y : Reg) : Statement (.orReg x y) := by
  simp [Statement, encode, legalWord, legalLow8, ofXyn, top_ofNibbles, low_ofNibbles]

theorem andReg (x y : Reg) : Statement (.andReg x y) := by
  simp [Statement, encode, legalWord, legalLow8, ofXyn, top_ofNibbles, low_ofNibbles]

theorem xorReg (x y : Reg) : Statement (.xorReg x y) := by
  simp [Statement, encode, legalWord, legalLow8, ofXyn, top_ofNibbles, low_ofNibbles]

theorem addReg (x y : Reg) : Statement (.addReg x y) := by
  simp [Statement, encode, legalWord, legalLow8, ofXyn, top_ofNibbles, low_ofNibbles]

theorem subReg (x y : Reg) : Statement (.subReg x y) := by
  simp [Statement, encode, legalWord, legalLow8, ofXyn, top_ofNibbles, low_ofNibbles]

theorem shr (x y : Reg) : Statement (.shr x y) := by
  simp [Statement, encode, legalWord, legalLow8, ofXyn, top_ofNibbles, low_ofNibbles]

theorem subnReg (x y : Reg) : Statement (.subnReg x y) := by
  simp [Statement, encode, legalWord, legalLow8, ofXyn, top_ofNibbles, low_ofNibbles]

theorem shl (x y : Reg) : Statement (.shl x y) := by
  simp [Statement, encode, legalWord, legalLow8, ofXyn, top_ofNibbles, low_ofNibbles]

theorem sneReg (x y : Reg) : Statement (.sneReg x y) := by
  simp [Statement, encode, legalWord, legalLow0, ofXyn, top_ofNibbles, low_ofNibbles]

theorem ldI (nnn : Addr12) : Statement (.ldI nnn) := by
  simp [Statement, encode, legalWord, top_ofNnn]

theorem jpV0 (nnn : Addr12) : Statement (.jpV0 nnn) := by
  simp [Statement, encode, legalWord, top_ofNnn]

theorem rnd (x : Reg) (kk : Byte) : Statement (.rnd x kk) := by
  simp [Statement, encode, legalWord, top_ofXkk]

theorem drw (x y : Reg) (n : BitVec 4) : Statement (.drw x y n) := by
  simp [Statement, encode, legalWord, ofXyn, top_ofNibbles]

theorem skp (x : Reg) : Statement (.skp x) := by
  simp [Statement, encode, legalWord, legalLowE, top_ofXkk, lowByte_ofXkk]

theorem sknp (x : Reg) : Statement (.sknp x) := by
  simp [Statement, encode, legalWord, legalLowE, top_ofXkk, lowByte_ofXkk]

theorem ldVxDt (x : Reg) : Statement (.ldVxDt x) := by
  simp [Statement, encode, legalWord, legalLowF, top_ofXkk, lowByte_ofXkk]

theorem ldDtVx (x : Reg) : Statement (.ldDtVx x) := by
  simp [Statement, encode, legalWord, legalLowF, top_ofXkk, lowByte_ofXkk]

theorem ldStVx (x : Reg) : Statement (.ldStVx x) := by
  simp [Statement, encode, legalWord, legalLowF, top_ofXkk, lowByte_ofXkk]

theorem addI (x : Reg) : Statement (.addI x) := by
  simp [Statement, encode, legalWord, legalLowF, top_ofXkk, lowByte_ofXkk]

theorem ldVxK (x : Reg) : Statement (.ldVxK x) := by
  simp [Statement, encode, legalWord, legalLowF, top_ofXkk, lowByte_ofXkk]

theorem ldF (x : Reg) : Statement (.ldF x) := by
  simp [Statement, encode, legalWord, legalLowF, top_ofXkk, lowByte_ofXkk]

theorem ldB (x : Reg) : Statement (.ldB x) := by
  simp [Statement, encode, legalWord, legalLowF, top_ofXkk, lowByte_ofXkk]

theorem storeRegs (x : Reg) : Statement (.storeRegs x) := by
  simp [Statement, encode, legalWord, legalLowF, top_ofXkk, lowByte_ofXkk]

theorem loadRegs (x : Reg) : Statement (.loadRegs x) := by
  simp [Statement, encode, legalWord, legalLowF, top_ofXkk, lowByte_ofXkk]

theorem nop : Statement .nop := by unfold Statement; decide

end Sys2Proof.Laws.EncodesLegal
end

