-- ==== Sys2Proof/Tests/Slice0.lean ====
section
/-! SUPPORT. Tests: words decoded, words refused, the vectors of 95_test_vectors.md, and a witness for every statement that
has hypotheses. Expected results are the spec's, none is the model's own answer. -/

namespace Sys2Proof.Machine

/-! ### Well-formedness: 30_encoding.md R85 refuses an ill-formed word of each kind (95_test_vectors.md section 2.6) -/

theorem test_wf_top0 : legalWord 0x0123 = false ∧ legalWord 0x00FF = false ∧ legalWord 0x0000 = true := by decide

theorem test_wf_low5 : legalWord 0x5121 = false ∧ legalWord 0x5120 = true := by decide

theorem test_wf_low9 : legalWord 0x9121 = false ∧ legalWord 0x9120 = true := by decide

theorem test_wf_low8 : legalWord 0x8008 = false ∧ legalWord 0x800F = false ∧ legalWord 0x800E = true := by decide

theorem test_wf_lowE : legalWord 0xE000 = false ∧ legalWord 0xE09E = true := by decide

theorem test_wf_lowF : legalWord 0xF000 = false ∧ legalWord 0xF0FF = false ∧ legalWord 0xF165 = true := by decide

/-! ### Decoding: one word per row of R84, its bits from the row's Encoding line -/

theorem test_decode_cls : decodeWord 0b0000000011100000 = some .cls := by decide

theorem test_decode_ret : decodeWord 0b0000000011101110 = some .ret := by decide

theorem test_decode_jp : decodeWord 0b0001001000110100 = some (.jp 0x234) := by decide

theorem test_decode_call : decodeWord 0b0010001100000000 = some (.call 0x300) := by decide

theorem test_decode_seImm : decodeWord 0b0011001101000010 = some (.seImm 3 0x42) := by decide

theorem test_decode_sneImm : decodeWord 0b0100101011111111 = some (.sneImm 10 0xFF) := by decide

theorem test_decode_seReg : decodeWord 0b0101000100100000 = some (.seReg 1 2) := by decide

theorem test_decode_ldImm : decodeWord 0b0110101000101111 = some (.ldImm 10 0x2F) := by decide

theorem test_decode_addImm : decodeWord 0b0111000000000011 = some (.addImm 0 3) := by decide

theorem test_decode_ldReg : decodeWord 0b1000000000010000 = some (.ldReg 0 1) := by decide

theorem test_decode_orReg : decodeWord 0b1000001000110001 = some (.orReg 2 3) := by decide

theorem test_decode_andReg : decodeWord 0b1000010001010010 = some (.andReg 4 5) := by decide

theorem test_decode_xorReg : decodeWord 0b1000011001110011 = some (.xorReg 6 7) := by decide

theorem test_decode_addReg : decodeWord 0b1000000000010100 = some (.addReg 0 1) := by decide

theorem test_decode_subReg : decodeWord 0b1000100010010101 = some (.subReg 8 9) := by decide

theorem test_decode_shr : decodeWord 0b1000101010110110 = some (.shr 10 11) := by decide

theorem test_decode_subnReg : decodeWord 0b1000110011010111 = some (.subnReg 12 13) := by decide

theorem test_decode_shl : decodeWord 0b1000111011111110 = some (.shl 14 15) := by decide

theorem test_decode_sneReg : decodeWord 0b1001000100100000 = some (.sneReg 1 2) := by decide

theorem test_decode_ldI : decodeWord 0b1010001011110000 = some (.ldI 0x2F0) := by decide

theorem test_decode_jpV0 : decodeWord 0b1011111111111111 = some (.jpV0 0xFFF) := by decide

theorem test_decode_rnd : decodeWord 0b1100001100001111 = some (.rnd 3 0x0F) := by decide

theorem test_decode_drw : decodeWord 0b1101000100100101 = some (.drw 1 2 5) := by decide

theorem test_decode_skp : decodeWord 0b1110010010011110 = some (.skp 4) := by decide

theorem test_decode_sknp : decodeWord 0b1110010010100001 = some (.sknp 4) := by decide

theorem test_decode_ldVxDt : decodeWord 0b1111001000000111 = some (.ldVxDt 2) := by decide

theorem test_decode_ldDtVx : decodeWord 0b1111001000010101 = some (.ldDtVx 2) := by decide

theorem test_decode_ldStVx : decodeWord 0b1111001000011000 = some (.ldStVx 2) := by decide

theorem test_decode_addI : decodeWord 0b1111010100011110 = some (.addI 5) := by decide

theorem test_decode_ldVxK : decodeWord 0b1111001100001010 = some (.ldVxK 3) := by decide

theorem test_decode_ldF : decodeWord 0b1111000000101001 = some (.ldF 0) := by decide

theorem test_decode_ldB : decodeWord 0b1111001100110011 = some (.ldB 3) := by decide

theorem test_decode_storeRegs : decodeWord 0b1111001001010101 = some (.storeRegs 2) := by decide

theorem test_decode_loadRegs : decodeWord 0b1111000101100101 = some (.loadRegs 1) := by decide

theorem test_decode_nop : decodeWord 0b0000000000000000 = some .nop := by decide

/-- Bytes in memory order: the high byte first, the rest handed back (20_memory.md R57). -/
theorem test_decode_bytes : decode [0x80, 0x14, 0x00] = .ok (.addReg 0 1, [0x00]) := by decide

theorem test_decode_illegal : decode [0x01, 0x23] = .error (.illegalWord 0x0123) := by decide

theorem test_decode_truncated : decode [0x80] = .error (.truncated 1) ∧ decode [] = .error (.truncated 0) := by decide

theorem test_decode_table_word :
    decodeTableWord 16 0xD125 = some (.drw 1 2 5) ∧ decodeTableWord 16 0x0123 = none := by decide

/-! ### Instructions: the vectors of 95_test_vectors.md sections 1 and 2 -/

/-- A vector: from reset changed by `f`, the word `w` at pc, one step; what `p` sees of the next state. -/
def ran {α : Type} (f : State → State) (w : Nat) (p : State → α) : Option α :=
  match step ((f State.reset).withFetchWord 16 w) with
  | .next t => some (p t)
  | .fault _ => none
  | .refused _ => none

/-- V-RET-a -/
theorem test_ret_pops :
    ran (fun s => { s with sp := 1, stack := s.stack.set 0 0x0202, pc := 0x0300 }) 0x00EE
      (fun t => (t.pc, t.sp, t.stack[0])) = some (0x0202, 0, 0x0202) := by decide

/-- V-RET-b -/
theorem test_ret_underflow :
    ran (fun s => s) 0x00EE
      (fun t => (t.status, t.pc)) = some (.halted ⟨.stackUnderflow, 0x0200, some 0x00EE, none⟩, 0x0200) := by decide

/-- V-JP-a -/
theorem test_jp : ran (fun s => s) 0x1234 (fun t => t.pc) = some 0x0234 := by decide

/-- V-CALL-b -/
theorem test_call_last_entry :
    ran (fun s => { s with sp := 15 }) 0x2300
      (fun t => (t.stack[15], t.sp, t.pc)) = some (0x0202, 16, 0x0300) := by decide

/-- V-CALL-c -/
theorem test_call_overflow :
    ran (fun s => { s with sp := 16 }) 0x2300
      (fun t => (t.status, t.sp, t.pc)) =
        some (.halted ⟨.stackOverflow, 0x0200, some 0x2300, none⟩, 16, 0x0200) := by decide

/-- V-SE-a -/
theorem test_se_imm_skips : ran (fun s => (s.setV 3 0x42)) 0x3342 (fun t => t.pc) = some 0x0204 := by decide

/-- V-SE-b -/
theorem test_se_imm_stays : ran (fun s => (s.setV 3 0x41)) 0x3342 (fun t => t.pc) = some 0x0202 := by decide

/-- V-SNE-a -/
theorem test_sne_imm_skips : ran (fun s => (s.setV 3 0x41)) 0x4342 (fun t => t.pc) = some 0x0204 := by decide

/-- V-SNE-b -/
theorem test_sne_imm_stays : ran (fun s => (s.setV 3 0x42)) 0x4342 (fun t => t.pc) = some 0x0202 := by decide

/-- V-SEr-a -/
theorem test_se_reg_skips :
    ran (fun s => ((s.setV 1 0x07).setV 2 0x07)) 0x5120
      (fun t => t.pc) = some 0x0204 := by decide

/-- V-SEr-b -/
theorem test_se_reg_stays :
    ran (fun s => ((s.setV 1 0x07).setV 2 0x08)) 0x5120
      (fun t => t.pc) = some 0x0202 := by decide

/-- V-SNEr-a -/
theorem test_sne_reg_skips :
    ran (fun s => ((s.setV 1 0x07).setV 2 0x08)) 0x9120
      (fun t => t.pc) = some 0x0204 := by decide

/-- V-SNEr-b -/
theorem test_sne_reg_stays :
    ran (fun s => ((s.setV 1 0x07).setV 2 0x07)) 0x9120
      (fun t => t.pc) = some 0x0202 := by decide

/-- V-JPV0-a -/
theorem test_jp_v0 : ran (fun s => (s.setV 0 0x10)) 0xB300 (fun t => t.pc) = some 0x0310 := by decide

/-- V-JPV0-c -/
theorem test_jp_v0_unmasked : ran (fun s => (s.setV 0 0xFF)) 0xBFFF (fun t => t.pc) = some 0x10FE := by decide

/-- V-NOP -/
theorem test_nop : ran (fun s => s) 0x0000 (fun t => t.pc) = some 0x0202 := by decide

/-- V-LD-a -/
theorem test_ld_imm : ran (fun s => s) 0x6A2F (fun t => t.getV 10) = some 0x2F := by decide

/-- V-ADDi-a -/
theorem test_add_imm_wraps :
    ran (fun s => (s.setV 0 0xFE)) 0x7003
      (fun t => (t.getV 0, t.getV 15)) = some (0x01, 0x00) := by decide

/-- V-ADDi-b -/
theorem test_add_imm_vf_is_data : ran (fun s => (s.setV 15 0x01)) 0x7FFF (fun t => t.getV 15) = some 0x00 := by decide

/-- V-MOV -/
theorem test_ld_reg : ran (fun s => (s.setV 1 0x33)) 0x8010 (fun t => t.getV 0) = some 0x33 := by decide

/-- V-OR -/
theorem test_or_keeps_vf :
    ran (fun s => (((s.setV 0 0x0F).setV 1 0xF0).setV 15 0x07)) 0x8011
      (fun t => (t.getV 0, t.getV 15)) = some (0xFF, 0x07) := by decide

/-- V-AND -/
theorem test_and : ran (fun s => ((s.setV 0 0x3C).setV 1 0x0F)) 0x8012 (fun t => t.getV 0) = some 0x0C := by decide

/-- V-XOR-a -/
theorem test_xor : ran (fun s => ((s.setV 0 0x3C).setV 1 0x0F)) 0x8013 (fun t => t.getV 0) = some 0x33 := by decide

/-- V-8.4b -/
theorem test_add_carry :
    ran (fun s => ((s.setV 0 0xFF).setV 1 0x01)) 0x8014
      (fun t => (t.getV 0, t.getV 15)) = some (0x00, 0x01) := by decide

/-- V-8.4f -/
theorem test_add_flag_wins :
    ran (fun s => ((s.setV 15 0xF0).setV 0 0x20)) 0x8F04
      (fun t => t.getV 15) = some 0x01 := by decide

/-- V-8.5a -/
theorem test_sub_borrow :
    ran (fun s => ((s.setV 0 0x03).setV 1 0x05)) 0x8015
      (fun t => (t.getV 0, t.getV 15)) = some (0xFE, 0x00) := by decide

/-- V-8.5b -/
theorem test_sub_equal_no_borrow :
    ran (fun s => ((s.setV 0 0x07).setV 1 0x07)) 0x8015
      (fun t => (t.getV 0, t.getV 15)) = some (0x00, 0x01) := by decide

/-- V-8.7a -/
theorem test_subn :
    ran (fun s => ((s.setV 0 0x03).setV 1 0x05)) 0x8017
      (fun t => (t.getV 0, t.getV 15)) = some (0x02, 0x01) := by decide

/-- V-8.7b -/
theorem test_subn_borrow :
    ran (fun s => ((s.setV 0 0x02).setV 1 0x01)) 0x8017
      (fun t => (t.getV 0, t.getV 15)) = some (0xFF, 0x00) := by decide

/-- V-SHR-b -/
theorem test_shr_ignores_y :
    ran (fun s => ((s.setV 0 0x01).setV 1 0xFF)) 0x8016
      (fun t => (t.getV 0, t.getV 15)) = some (0x00, 0x01) := by decide

/-- V-SHL-a -/
theorem test_shl :
    ran (fun s => (s.setV 2 0x81)) 0x820E
      (fun t => (t.getV 2, t.getV 15)) = some (0x02, 0x01) := by decide

/-- V-RND-c -/
theorem test_rnd_zero_mask :
    ran (fun s => (s.setV 3 0x55)) 0xC300
      (fun t => (t.draws, t.pc)) = some (1, 0x0202) := by decide

/-- V-LDI -/
theorem test_ld_i : ran (fun s => s) 0xA2F0 (fun t => t.index) = some 0x02F0 := by decide

/-- V-ADDI-b -/
theorem test_add_i_overflow :
    ran (fun s => { (s.setV 0 0x02) with index := 0xFFFF }) 0xF01E
      (fun t => (t.index, t.getV 15)) = some (0x0001, 0x01) := by decide

/-- V-ADDI-c -/
theorem test_add_i_no_12_bit_wrap :
    ran (fun s => { (s.setV 0 0x01) with index := 0x0FFF }) 0xF01E
      (fun t => t.index) = some 0x1000 := by decide

/-- V-FONT-b -/
theorem test_ld_f_unmasked : ran (fun s => (s.setV 0 0xFF)) 0xF029 (fun t => t.index) = some 0x04FB := by decide

/-- V-BCD-d -/
theorem test_bcd :
    ran (fun s => { (s.setV 0 0x7B) with index := 0x0050 }) 0xF033
      (fun t => t.mem.readBytes 0x50 3) = some [1, 2, 3] := by decide

/-- V-BCD-f -/
theorem test_bcd_out_of_bounds :
    ran (fun s => { (s.setV 0 0x01) with index := 0x0FFE }) 0xF033
      (fun t => (t.status, t.mem.readBytes 0xFFE 2)) =
        some (.halted ⟨.memoryOutOfBounds, 0x0200, some 0xF033, some (.address 0x1000)⟩, [0, 0]) := by decide

/-- V-ST-a -/
theorem test_store_regs :
    ran (fun s => { (((s.setV 0 0x01).setV 1 0x02).setV 2 0x03) with index := 0x0400 }) 0xF255
      (fun t => (t.mem.readBytes 0x400 4, t.index)) = some ([1, 2, 3, 0], 0x0400) := by decide

/-- V-ST-e -/
theorem test_store_regs_font_write :
    ran (fun s => s) 0xF055
      (fun t => t.status) = some (.halted ⟨.fontWrite, 0x0200, some 0xF055, some (.address 0)⟩) := by decide

/-- V-LDM-b -/
theorem test_load_regs_font :
    ran (fun s => s) 0xF165
      (fun t => (t.getV 0, t.getV 1, t.getV 2)) = some (0xF0, 0x90, 0x00) := by decide

/-- V-LDM-c -/
theorem test_load_regs_out_of_bounds :
    ran (fun s => { s with index := 0x0FF1 }) 0xFF65
      (fun t => t.status) =
        some (.halted ⟨.memoryOutOfBounds, 0x0200, some 0xFF65, some (.address 0x1000)⟩) := by decide

/-- V-CLS -/
theorem test_cls :
    ran (fun s => { s with fb := toggle s.fb 31 63 }) 0x00E0
      (fun t => pixel t.fb 31 63) = some false := by decide

/-- V-DRW-b, W6 -/
theorem test_drw_wraps :
    ran (fun s => { ((s.setV 0 0x3F).setV 1 0x1F) with index := 0x0300, mem := s.mem.write 0x300 0xFF }) 0xD011
      (fun t => ((List.finRange 64).filter (pixel t.fb 31), t.getV 15)) =
        some ([0, 1, 2, 3, 4, 5, 6, 63], 0) := by decide

/-- V-DRW-h -/
theorem test_drw_collision :
    ran (fun s => { s with fb := toggle s.fb 0 0 }) 0xD001
      (fun t => ((List.finRange 64).filter (pixel t.fb 0), t.getV 15)) = some ([1, 2, 3], 1) := by decide

/-- V-SKP-a -/
theorem test_skp_skips :
    ran (fun s => { (s.setV 4 0x0A) with keys := s.keys.set 10 true, pc := 0x0220 }) 0xE49E
      (fun t => t.pc) = some 0x0224 := by decide

/-- V-SKP-c -/
theorem test_skp_key_out_of_range :
    ran (fun s => (s.setV 0 0x10)) 0xE09E
      (fun t => t.status) = some (.halted ⟨.keyIndexOutOfRange, 0x0200, some 0xE09E, some (.key 0x10)⟩) := by decide

/-- V-SKNP-a -/
theorem test_sknp_skips :
    ran (fun s => { (s.setV 4 0x0A) with pc := 0x0220 }) 0xE4A1
      (fun t => t.pc) = some 0x0224 := by decide

/-- V-SKNP-c -/
theorem test_sknp_key_out_of_range :
    ran (fun s => (s.setV 0 0xFF)) 0xE0A1
      (fun t => t.status) = some (.halted ⟨.keyIndexOutOfRange, 0x0200, some 0xE0A1, some (.key 0xFF)⟩) := by decide

/-- V-LDDT -/
theorem test_ld_vx_dt :
    ran (fun s => { s with dt := 0x3C }) 0xF207
      (fun t => (t.getV 2, t.dt)) = some (0x3C, 0x3C) := by decide

/-- V-SETDT -/
theorem test_ld_dt_vx : ran (fun s => (s.setV 2 0x3C)) 0xF215 (fun t => (t.dt, t.st)) = some (0x3C, 0x00) := by decide

/-- V-SETST -/
theorem test_ld_st_vx : ran (fun s => (s.setV 2 0x05)) 0xF218 (fun t => (t.st, t.dt)) = some (0x05, 0x00) := by decide

/-- V-WAIT-a -/
theorem test_key_wait_repeats :
    ran (fun s => { (s.setV 3 0x77) with pc := 0x0230 }) 0xF30A
      (fun t => (t.pc, t.getV 3)) = some (0x0230, 0x77) := by decide

/-- V-WAIT-b -/
theorem test_key_wait_lowest :
    ran (fun s => { s with pc := 0x0230, keys := (s.keys.set 9 true).set 5 true }) 0xF30A
      (fun t => (t.pc, t.getV 3, t.keys[9])) = some (0x0232, 0x05, true) := by decide

/-- V-DEC-a -/
theorem test_illegal_word :
    ran (fun s => s) 0x0123
      (fun t => (t.status, t.pc)) = some (.halted ⟨.decodeError, 0x0200, some 0x0123, none⟩, 0x0200) := by decide

/-- V-RND-a, V-RND-b, V-RND-d: the draw is given. -/
theorem test_rnd_with_draw :
    (rndWith 0x0B 3 0x0F State.reset).getV 3 = 0x0B ∧ (rndWith 0x07 3 0x0A State.reset).getV 3 = 0x02 ∧
      (rndWith 0xA5 3 0xFF State.reset).getV 3 = 0xA5 := by decide

/-- V-SHR-F and V-SHL-F, for each value of `SHIFT_VF_RESULT`. -/
theorem test_shift_vf_by_parameter :
    shiftVF .flag .right 0x03 = 0x01 ∧ shiftVF .seqResult .right 0x03 = 0x00 ∧
      shiftVF .capturedResult .right 0x03 = 0x01 ∧ shiftVF .flag .left 0x81 = 0x01 ∧
      shiftVF .seqResult .left 0x81 = 0x02 ∧ shiftVF .capturedResult .left 0x81 = 0x02 := by decide

/-- V-ADDI-a and V-ADDI-c, for each value of `FX1E_VF_CLEAR`. -/
theorem test_fx1e_vf_by_parameter :
    (addIndex false 5 { (State.reset.setV 5 0x10).setV VF 7 with index := 0x300 }).getV VF = 7 ∧
      (addIndex true 5 { (State.reset.setV 5 0x10).setV VF 7 with index := 0x300 }).getV VF = 0 := by decide

/-- V-TMR-c, for each value of `SOUND_SAMPLE`. -/
theorem test_sound_by_parameter : soundFlag .pre 1 0 = true ∧ soundFlag .post 1 0 = false := by decide

/-- V-JP-c, the second execution: 0FFF is past the last fetch address. -/
theorem test_fetch_at_4095 :
    ran (fun s => { s with pc := 0x0FFF }) 0x0000 (fun t => t.status) =
      some (.halted ⟨.fetchOutOfBounds, 0x0FFF, none, none⟩) := by decide

/-- R99: a skip at the last word of memory leaves pc at 4098. -/
theorem test_skip_over_the_end : ran (fun s => { s with pc := 4094 }) 0x3000 (fun t => t.pc) = some 4098 := by decide

/-! ### Host operations (section 2.7) -/

/-- From reset changed by `f`, one operation under the default FONT; what `p` sees of the next state and the answer. -/
def did {α : Type} (f : State → State) (op : HostOp) (p : State → Answer → α) : Option α :=
  match hostStep defaultFont op (f State.reset) with
  | .next (t, a) => some (p t a)
  | .fault _ => none
  | .refused _ => none

/-- FONT is a parameter: another font stands at 0..79 after `initialize`, and only there. -/
theorem test_initialize_other_font :
    (match hostStep (Vector.replicate 80 0xFF) .initMachine State.reset with
      | .next (t, _) => some (t.mem.readBytes 78 4)
      | _ => none) = some [0xFF, 0xFF, 0x00, 0x00] := by decide

/-- V-TMR-a -/
theorem test_advance_timers :
    did (fun s => { s with dt := 3, st := 2 }) .advanceTimers (fun t _ => (t.dt, t.st)) = some (2, 1) := by decide

/-- V-TMR-b -/
theorem test_advance_timers_floor :
    did (fun s => s) .advanceTimers (fun t _ => (t.dt, t.st)) = some (0, 0) := by decide

/-- V-KEY-a -/
theorem test_set_key :
    did (fun s => s) (.setKey (some 3) true) (fun t a => (t.keys[3], t.keys[2], a)) = some (true, false, .done) := by
  decide

/-- V-KEY-b, V-KEY-c -/
theorem test_set_key_no_op :
    did (fun s => s) (.setKey (some 16) true) (fun t _ => t.keys) = some State.reset.keys ∧
      did (fun s => s) (.setKey none true) (fun t _ => t.keys) = some State.reset.keys := by decide

/-- W1's bytes, loaded. -/
theorem test_load_program :
    did (fun s => s) (.loadProgram [0x60, 0x05, 0x61, 0x03]) (fun t a => (t.mem.readBytes 511 6, a)) =
      some ([0x00, 0x60, 0x05, 0x61, 0x03, 0x00], .done) := by decide

/-- V-LOAD-b -/
theorem test_load_program_too_long (bs : List Byte) (h : bs.length = 3585) :
    hostStep defaultFont (.loadProgram bs) State.reset = .next (State.reset, .loadError) := by
  simp [hostStep, State.reset, runningOp, h]

/-- V-REST-a: sp = 17. -/
theorem test_restore_sp_17 :
    ({ State.reset.snapshotRecord 60 with sp := some (.num8 17) } : PersistedRecord).toState 0 = none := by
  cases h : ({ State.reset.snapshotRecord 60 with sp := some (.num8 17) } : PersistedRecord).toState 0 with
  | none => rfl
  | some p =>
    have := (toState_eq_some.mp h).2.choose_spec.2.2.2.2.2.2.2.1
    cases this

/-- V-REST-b: an extra field. -/
theorem test_restore_unknown_field :
    ({ State.reset.snapshotRecord 60 with unknown := ["cycles"] } : PersistedRecord).toState 0 = none := rfl

/-! ### Witnesses: states and operands that meet a statement's hypotheses together, at boundaries where clauses meet -/

/-- Reset with I at `i`. -/
def atIndex (i : Word) : State := { State.reset with index := i }

/-- Reset, halted by the illegal word 0123. -/
def haltedState : State := State.reset.takeFault .decodeError (some 0x0123) none

theorem witness_MatchAndMaskDecideDecoding :
    decodeWord 0x8014 = some (.addReg 0 1) ∧ maskRows[13]? = some (0x8004, 0xF00F) := by decide

/-- At reset, and at pc = 4094, the last place a fetch may stand. -/
theorem witness_StepRunsTheDecodedInstruction :
    (State.reset.Running ∧ State.reset.pc.toNat ≤ 4094 ∧ decodeWord (joinBytes (State.reset.mem.read State.reset.pc.toNat)
      (State.reset.mem.read (State.reset.pc.toNat + 1))) = some .nop) ∧
    (State.reset.setPc 4094).Running ∧ (State.reset.setPc 4094).pc.toNat ≤ 4094 ∧
      decodeWord (joinBytes ((State.reset.setPc 4094).mem.read (State.reset.setPc 4094).pc.toNat)
        ((State.reset.setPc 4094).mem.read ((State.reset.setPc 4094).pc.toNat + 1))) = some .nop :=
  ⟨⟨rfl, by decide, by decide⟩, rfl, by decide, by decide⟩

theorem witness_FetchPastTheEndHalts :
    (State.reset.setPc 4095).Running ∧ (State.reset.setPc 4095).pc.toNat > 4094 := ⟨rfl, by decide⟩

/-- The font's first word, F090, is illegal. -/
theorem witness_IllegalWordHalts :
    (State.reset.setPc 0).Running ∧ (State.reset.setPc 0).pc.toNat ≤ 4094 ∧
      legalWord (joinBytes ((State.reset.setPc 0).mem.read (State.reset.setPc 0).pc.toNat)
        ((State.reset.setPc 0).mem.read ((State.reset.setPc 0).pc.toNat + 1))) = false := ⟨rfl, by decide, by decide⟩

theorem witness_FaultsArePrecise :
    ∃ t r, (State.reset.setPc 4095).Running ∧ step (State.reset.setPc 4095) = .next t ∧ t.status = .halted r :=
  ⟨_, _, rfl, rfl, rfl⟩

/-- A store through I at 79, the last font byte, raises FontWrite; at 4096 it raises MemoryOutOfBounds; at 80 nothing. -/
theorem witness_FaultsAreExactlyThoseOfTheTable :
    (atIndex 79).Running ∧
    (∃ t, step ((atIndex 79).withFetchWord 16 0xF055) = .next t ∧
      t.status = .halted ⟨.fontWrite, 0x200, some 0xF055, some (.address 79)⟩) ∧
    (∃ t, step ((atIndex 4096).withFetchWord 16 0xF055) = .next t ∧
      t.status = .halted ⟨.memoryOutOfBounds, 0x200, some 0xF055, some (.address 4096)⟩) ∧
    ∃ t, step ((atIndex 80).withFetchWord 16 0xF055) = .next t ∧ t.status = .running :=
  ⟨rfl, ⟨_, rfl, by decide⟩, ⟨_, rfl, by decide⟩, _, rfl, by decide⟩

theorem witness_HaltedIsAbsorbing :
    haltedState.status = .halted ⟨.decodeError, 0x200, some 0x0123, none⟩ ∧ HostOp.advanceTimers ≠ .initMachine :=
  ⟨rfl, by decide⟩

/-- A step that stores, from a memory that already lists a cell. -/
theorem witness_StepKeepsMemoryCanonicalAndFont :
    ((atIndex 80).withFetchWord 16 0xF055).Inv defaultFont ∧ ∃ t, step ((atIndex 80).withFetchWord 16 0xF055) = .next t :=
  ⟨⟨by decide, by unfold State.FontIntact; decide⟩, _, rfl⟩

/-- The font clause under any FONT, met by an operation that is no `restore` and by restoring a snapshot. -/
theorem witness_OperationsKeepStackPointerAndFont (font : Config.Font) :
    (State.resetWith font).mem.wf = true ∧ (State.resetWith font).FontIntact font ∧
      (∃ t a, hostStep font .advanceTimers (State.resetWith font) = .next (t, a)) ∧
      ∃ l, ((State.resetWith font).snapshotRecord 60).memory = some (.bytes l) ∧ l.take 80 = font.toList := by
  refine ⟨wf_resetWith font, read_resetWith font, ⟨_, _, rfl⟩, _, rfl, ?_⟩
  rw [Memory.readBytes, ← List.map_take, List.take_range]
  apply List.ext_getElem
  · simp
  · intro k h1 h2
    have e := read_resetWith font ⟨k, by simpa using h2⟩
    simpa using e

theorem witness_StepKeepsPcBounded : State.reset.PcBounded ∧ ∃ t, step State.reset = .next t :=
  ⟨⟨by decide, by decide⟩, _, rfl⟩

/-- A bound that is reached: Bnnn leaves pc at 10FE. -/
theorem witness_StepKeepsPcBounded_bound :
    ∃ t, step ((State.reset.setV 0 0xFF).withFetchWord 16 0xBFFF) = .next t ∧ t.pc.toNat = 0x10FE := ⟨_, rfl, by decide⟩

theorem witness_RegisterAccessMatrix :
    (∃ t, exec (.addReg 0 1) State.reset = .next t) ∧ (2 : Reg) ∉ writesV (.addReg 0 1) ∧
      (2 : Reg) ∉ readsV (.addReg 0 1) := ⟨⟨_, rfl⟩, by decide, by decide⟩

theorem witness_TimersChangeOnlyByTheirInstructions :
    (∃ t, exec (.ldStVx 1) State.reset = .next t ∧ ∀ x, Instr.ldStVx 1 ≠ .ldDtVx x) ∧
    ∃ t, exec (.ldDtVx 1) State.reset = .next t ∧ ∀ x, Instr.ldDtVx 1 ≠ .ldStVx x :=
  ⟨⟨_, rfl, by decide⟩, _, rfl, by decide⟩

theorem witness_KeysAndFramebufferWriters :
    ∃ t, exec (.ldVxK 1) State.reset = .next t ∧ Instr.ldVxK 1 ≠ .cls ∧ ∀ x y n, Instr.ldVxK 1 ≠ .drw x y n :=
  ⟨_, rfl, by decide, by simp⟩

/-- `NOP` meets every clause's premises, and a stack entry other than the one at sp exists. -/
theorem witness_IndexStackAndMemoryWriters :
    ∃ t, exec .nop State.reset = .next t ∧ (∀ n, Instr.nop ≠ .ldI n) ∧ (∀ x, Instr.nop ≠ .addI x) ∧
      (∀ x, Instr.nop ≠ .ldF x) ∧ (∀ n, Instr.nop ≠ .call n) ∧ Instr.nop ≠ .ret ∧ (∀ x, Instr.nop ≠ .ldB x) ∧
      (∀ x, Instr.nop ≠ .storeRegs x) ∧ (1 : Fin 16).val ≠ State.reset.sp.val :=
  ⟨_, rfl, by simp, by simp, by simp, by simp, by simp, by simp, by simp, by decide⟩

/-- sp = 1 and sp = 0. -/
theorem witness_ReturnPopsOrUnderflows :
    ({ State.reset with sp := 1 } : State).sp.val ≠ 0 ∧ State.reset.sp.val = 0 := by decide

/-- sp = 15 and sp = 16. -/
theorem witness_CallPushesOrOverflows :
    ({ State.reset with sp := 15 } : State).sp.val ≠ 16 ∧ ({ State.reset with sp := 16 } : State).sp.val = 16 := by
  decide

theorem witness_CallThenReturnComesBack :
    ∃ t u : State, State.reset.sp.val ≠ 16 ∧ exec (.call 0x300) State.reset = .next t ∧ u.sp = t.sp ∧
      u.stack[State.reset.sp.val]? = t.stack[State.reset.sp.val]? := ⟨_, _, by decide, rfl, rfl, rfl⟩

/-- The two cases of the arithmetic and shift statements. -/
theorem witness_AddLeavesSumAndCarry : (0 : Reg) ≠ VF ∧ (15 : Reg) = VF := by decide

theorem witness_SubtractLeavesDifferenceAndNotBorrow : (0 : Reg) ≠ VF ∧ (State.reset.getV 0).toNat < 1 := by decide

theorem witness_ShiftsLeaveResultAndBitShiftedOut : (14 : Reg) ≠ VF ∧ (15 : Reg) = VF := by decide

/-- 6 is a submask of 7 and 8 is not. -/
theorem witness_RandomValuesAreTheSubmasks : (6 : Byte) &&& ~~~7 = 0 ∧ (8 : Byte) &&& ~~~7 ≠ 0 := by decide

/-- Where the clauses meet: I = 79 and 80, 4093 and 4094; and a canonical memory. -/
theorem witness_BcdStoresThreeDigits :
    (80 ≤ (atIndex 80).index.toNat ∧ (atIndex 80).index.toNat + 2 ≤ 4095 ∧ (atIndex 80).mem.wf = true) ∧
    (80 ≤ (atIndex 4093).index.toNat ∧ (atIndex 4093).index.toNat + 2 ≤ 4095) ∧ (atIndex 79).index.toNat ≤ 79 ∧
    80 ≤ (atIndex 4094).index.toNat ∧ (atIndex 4094).index.toNat + 2 > 4095 := by decide

theorem witness_StoreRegistersFromIndexOn :
    (80 ≤ (atIndex 80).index.toNat ∧ (atIndex 80).index.toNat + (15 : Reg).val ≤ 4095 ∧ (atIndex 80).mem.wf = true) ∧
    (80 ≤ (atIndex 4080).index.toNat ∧ (atIndex 4080).index.toNat + (15 : Reg).val ≤ 4095) ∧
    (atIndex 79).index.toNat ≤ 79 ∧ 80 ≤ (atIndex 4081).index.toNat ∧
    (atIndex 4081).index.toNat + (15 : Reg).val > 4095 := by decide

theorem witness_LoadRegistersFromIndexOn :
    (atIndex 0).index.toNat + (15 : Reg).val ≤ 4095 ∧ (atIndex 4095).index.toNat + (0 : Reg).val ≤ 4095 ∧
      (0 : Reg) ≤ 15 ∧ (atIndex 4096).index.toNat + (0 : Reg).val > 4095 := by decide

/-- Fx55 over the whole next word (P6), Fx33 over its second byte only, and Fx55 over its first byte only. -/
theorem witness_NextFetchSeesTheStore :
    (∃ t, (atIndex 0x202).mem.wf = true ∧ 80 ≤ (atIndex 0x202).index.toNat ∧ t.pc.toNat ≤ 4094 ∧
      (atIndex 0x202).index.toNat + (1 : Reg).val ≤ 4095 ∧ exec (.storeRegs 1) (atIndex 0x202) = .next t ∧
      (atIndex 0x202).ea 0 = t.pc.toNat ∧ (atIndex 0x202).ea 1 = t.pc.toNat + 1) ∧
    (∃ t, (atIndex 0x203).mem.wf = true ∧ 80 ≤ (atIndex 0x203).index.toNat ∧ t.pc.toNat ≤ 4094 ∧
      (atIndex 0x203).index.toNat + 2 ≤ 4095 ∧ exec (.ldB 0) (atIndex 0x203) = .next t ∧
      t.pc.toNat < (atIndex 0x203).ea 0 ∧ (atIndex 0x203).ea 0 = t.pc.toNat + 1) ∧
    ∃ t, t.pc.toNat ≤ 4094 ∧ exec (.storeRegs 0) (atIndex 0x202) = .next t ∧
      (atIndex 0x202).ea 0 = t.pc.toNat ∧ (atIndex 0x202).ea 1 ≤ t.pc.toNat + 1 := by
  refine ⟨⟨(atIndex 0x202).advance |> fun s => { s with mem := s.mem.writeBytes 0x202 [0, 0] }, by decide, by decide,
    by decide, by decide, rfl, by decide, by decide⟩, ⟨{ (atIndex 0x203).advance with
    mem := (atIndex 0x203).mem.writeBytes 0x203 [0, 0, 0] }, by decide, by decide, by decide, by decide, rfl, by decide,
    by decide⟩, ⟨{ (atIndex 0x202).advance with mem := (atIndex 0x202).mem.writeBytes 0x202 [0] }, by decide, rfl,
    by decide, by decide⟩⟩

theorem witness_LoadAfterStoreReadsBack :
    ∃ t u : State, (atIndex 4080).mem.wf = true ∧ 80 ≤ (atIndex 4080).index.toNat ∧
      (atIndex 4080).index.toNat + (15 : Reg).val ≤ 4095 ∧ exec (.storeRegs 15) (atIndex 4080) = .next t ∧
      u.mem = t.mem ∧ u.index = t.index := ⟨_, _, by decide, by decide, by decide, rfl, rfl, rfl⟩

/-- The last sprite that fits and the first that does not, an empty sprite, and a covered and an uncovered pixel of
the glyph "0" (95_test_vectors.md W2). -/
theorem witness_DrawInvertsTheCoveredPixels :
    (atIndex 4095).index.toNat + (1 : BitVec 4).toNat ≤ 4096 ∧ (0 : BitVec 4).toNat = 0 ∧
    ((atIndex 4095).index.toNat + (2 : BitVec 4).toNat > 4096 ∧ 1 ≤ (2 : BitVec 4).toNat) ∧
    (atIndex 0).index.toNat + (5 : BitVec 4).toNat ≤ 4096 ∧
    SpriteCovers (atIndex 0) 0 0 5 1 3 ∧ ¬SpriteCovers (atIndex 0) 0 0 5 1 1 := by
  refine ⟨by decide, rfl, by decide, by decide, ⟨1, 3, by decide, by decide, by decide, by decide, by decide⟩, ?_⟩
  rintro ⟨r, c, hr, hc, h1, h2, h3⟩
  have hr : r < 5 := hr
  have h1 : 1 = (0 + r) % 32 := h1
  have h2 : 1 = (0 + c) % 64 := h2
  obtain rfl : r = 1 := by omega
  obtain rfl : c = 1 := by omega
  revert h3
  decide

theorem witness_DrawingTwiceRestores :
    ∃ t u : State, ((atIndex 0).index.toNat + (5 : BitVec 4).toNat ≤ 4096 ∨ (5 : BitVec 4).toNat = 0) ∧
      exec (.drw 0 1 5) (atIndex 0) = .next t ∧ u.fb = t.fb ∧ u.mem = t.mem ∧ u.index = (atIndex 0).index ∧
      u.getV 0 = (atIndex 0).getV 0 ∧ u.getV 1 = (atIndex 0).getV 1 :=
  ⟨_, _, .inl (by decide), rfl, rfl, rfl, by decide, by decide, by decide⟩

/-- V[x] = 15 and V[x] = 16. -/
theorem witness_SkipOnKeyLatch :
    ((State.reset.setV 0 15).getV 0).toNat = (15 : Fin 16).val ∧ ((State.reset.setV 0 16).getV 0).toNat > 15 := by decide

/-- Keys 5 and 9 held; and no key. -/
theorem witness_KeyWaitCapturesLowestOrRepeats :
    (((State.reset.withKey (some 9) true).withKey (some 5) true).keys[(5 : Fin 16)] = true ∧
      ∀ j : Fin 16, j < 5 → ((State.reset.withKey (some 9) true).withKey (some 5) true).keys[j] = false) ∧
    ∀ k : Fin 16, State.reset.keys[k] = false := by decide

/-- The premise of every statement about a host operation on a Running machine. -/
theorem witness_AdvanceTimersCountsDown : State.reset.Running := rfl

theorem witness_SetKeySetsOneLatch : State.reset.Running := rfl

theorem witness_ReadingsChangeNothing : State.reset.Running := rfl

/-- The longest program, and one byte more. -/
theorem witness_LoadProgramCopiesOrRefuses :
    State.reset.Running ∧ State.reset.mem.wf = true ∧ (List.replicate 3584 (0x60 : Byte)).length ≤ 3584 ∧
      (List.replicate 3585 (0x60 : Byte)).length > 3584 := 
  ⟨rfl, rfl, by rw [List.length_replicate], by rw [List.length_replicate]; decide⟩

theorem witness_SnapshotThenRestoreIsIdentity :
    (State.reset.setV 0 8).Running ∧ State.reset.Running ∧ (State.reset.setV 0 8).mem.wf = true := ⟨rfl, rfl, rfl⟩

/-- A record that is ok (sp = 0), one at the bound (sp = 16), and one past it (sp = 17). -/
theorem witness_RestoreRejectsExactlyBadRecords :
    State.reset.Running ∧ RecordOk (State.reset.snapshotRecord 60) ∧
      RecordOk (({ State.reset with sp := 16 } : State).snapshotRecord 60) ∧
      ¬RecordOk { State.reset.snapshotRecord 60 with sp := some (.num8 17) } := by
  have ok : ∀ s : State, RecordOk (s.snapshotRecord 60) := fun s =>
    ⟨rfl, ⟨_, rfl, by simp⟩, ⟨_, rfl, by simp⟩, ⟨_, rfl, by simp⟩, ⟨_, rfl, by simp⟩, ⟨_, rfl, by simp [screenBits]⟩,
      ⟨_, rfl⟩, ⟨_, rfl⟩, ⟨_, rfl, by have := s.sp.isLt; simp; omega⟩, ⟨_, rfl⟩, ⟨_, rfl⟩, ⟨_, rfl⟩⟩
  refine ⟨rfl, ok _, ok _, ?_⟩
  rintro ⟨-, -, -, -, -, -, -, -, ⟨b, hb, hle⟩, -⟩
  injection hb with hb
  injection hb with hb
  subst hb
  revert hle
  decide

theorem witness_ExecuteOneIsAStepWithItsReport : State.reset.Running ∧ (State.reset.setPc 4095).Running := ⟨rfl, rfl⟩

/-- A host that presses key 5 and executes, in turn. -/
def pressingHost : HostCalls := fun n => if n % 2 = 0 then .setKey (some 5) true else .executeOne

/-- A host that executes and ticks, in turn. -/
def tickingHost : HostCalls := fun n => if n % 2 = 0 then .executeOne else .advanceTimers

theorem pressingHost_inDriverLoop : pressingHost.InDriverLoop := by
  intro n
  unfold pressingHost
  split <;> simp

theorem tickingHost_inDriverLoop : tickingHost.InDriverLoop := by
  intro n
  unfold tickingHost
  split <;> simp

/-- A fair host; and one that only executes, with no key held. -/
theorem witness_KeyWaitEndsByTheHost :
    (State.reset.withFetchWord 16 0xF30A).Running ∧
    (State.reset.withFetchWord 16 0xF30A).fetch.bind decodeWord = some (.ldVxK 3) ∧
    (pressingHost.InDriverLoop ∧ pressingHost.PressesThenExecutes) ∧
    (HostCalls.InDriverLoop fun _ => .executeOne) ∧
    (∀ k : Fin 16, (State.reset.withFetchWord 16 0xF30A).keys[k] = false) ∧
    ∀ (_ : Nat) k, HostOp.executeOne = .setKey (some k) true → 16 ≤ k := by
  refine ⟨rfl, by decide, ⟨pressingHost_inDriverLoop, fun n => ⟨2 * n, 2 * n + 1, 5, by omega, by omega, by omega, ?_, ?_, ?_⟩⟩,
    fun _ => by simp, by decide, by simp⟩
  · unfold pressingHost; rw [if_pos (by omega)]
  · unfold pressingHost; rw [if_neg (by omega)]
  · intro j h1 h2
    omega

/-- The idle loop 1200 at 0x200, with DT = `d` and ST = `e`. -/
def idle (d e : Byte) : State := { State.reset.withFetchWord 16 0x1200 with dt := d, st := e }

theorem idle_fetch (d e : Byte) : (idle d e).fetch = some 0x1200 :=
  (show (idle d e).fetch = (State.reset.withFetchWord 16 0x1200).fetch from rfl).trans (by decide)

theorem idle_decodes (d e : Byte) : (idle d e).fetch.bind decodeWord = some (.jp 0x200) := by
  rw [idle_fetch]
  decide

theorem idle_step (d e : Byte) : step (idle d e) = .next (idle d e) := by
  have hd : decodeWord 0x1200 = some (.jp 0x200) := by decide
  unfold step
  rw [show (idle d e).status = .running from rfl]
  simp only [idle_fetch, hd]
  rfl

/-- Executing and ticking, a machine in the idle loop stays in it, with some timers. -/
theorem idle_afterCalls (font : Config.Font) (h : HostCalls) (hh : ∀ n, h n = .executeOne ∨ h n = .advanceTimers) (n : Nat) :
    ∃ d e, afterCalls font h (idle 3 0) n = some (idle d e) := by
  induction n with
  | zero => exact ⟨3, 0, rfl⟩
  | succ n ih =>
    obtain ⟨d, e, hn⟩ := ih
    unfold afterCalls
    rw [hn]
    rcases hh n with hc | hc
    · rw [hc]
      simp only [hostStep_executeOne (font := font) (show (idle d e).status = .running from rfl) (idle_step d e)]
      exact ⟨d, e, rfl⟩
    · rw [hc]
      exact ⟨tick d, tick e, rfl⟩

/-- The idle loop with DT = 3, under a host that ticks and under one that never does. -/
theorem witness_DelayTimerRunsOutByTheHost (font : Config.Font) :
    (tickingHost.InDriverLoop ∧ tickingHost.Ticks ∧ tickingHost.Executes ∧
      ∀ n, ∃ t, afterCalls font tickingHost (idle 3 0) n = some t ∧ t.Running ∧
        (tickingHost n = .executeOne → ∀ x, t.fetch.bind decodeWord ≠ some (.ldDtVx x))) ∧
    (HostCalls.InDriverLoop fun _ => .executeOne) ∧ (∀ _ : Nat, HostOp.executeOne ≠ .advanceTimers) ∧
      ∀ n, ∃ t, afterCalls font (fun _ => .executeOne) (idle 3 0) n = some t ∧
        t.Running ∧ ∀ x, t.fetch.bind decodeWord ≠ some (.ldDtVx x) := by
  have dec : ∀ (d e : Byte) (x : Reg), (idle d e).fetch.bind decodeWord ≠ some (.ldDtVx x) := by
    intro d e x
    rw [idle_decodes]
    simp
  refine ⟨⟨tickingHost_inDriverLoop, fun n => ⟨2 * n + 1, by omega, ?_⟩, fun n => ⟨2 * n, by omega, ?_⟩, fun n => ?_⟩,
    fun _ => by simp, by simp, fun n => ?_⟩
  · unfold tickingHost; rw [if_neg (by omega)]
  · unfold tickingHost; rw [if_pos (by omega)]
  · obtain ⟨d, e, hn⟩ := idle_afterCalls font tickingHost (fun n => by unfold tickingHost; split <;> simp) n
    exact ⟨_, hn, rfl, fun _ => dec d e⟩
  · obtain ⟨d, e, hn⟩ := idle_afterCalls font (fun _ => .executeOne) (fun _ => .inl rfl) n
    exact ⟨_, hn, rfl, dec d e⟩

end Sys2Proof.Machine
end

section
/-! PROOF. The state's invariants and who may change what (10_state.md): O13, O14, O15, O17, O19, O20. -/

namespace Sys2Proof.Machine

/-! ### What a step stores: bytes above the font and inside the address space (20_memory.md R56, R60) -/

/-- Memory `m'` is `m` with some bytes stored (or none), each at an address from 80 to 4095. -/
def StoresAboveFont (m m' : Memory) : Prop :=
  ∃ a bs, 80 ≤ a ∧ a + bs.length ≤ 4096 ∧ m' = m.writeBytes a bs

theorem StoresAboveFont.refl (m : Memory) : StoresAboveFont m m := ⟨80, [], by simp, by simp, rfl⟩

theorem StoresAboveFont.of_eq {m m' : Memory} (h : m' = m) : StoresAboveFont m m' := h ▸ .refl m

theorem StoresAboveFont.wf {m m' : Memory} (h : StoresAboveFont m m') (hm : m.wf = true) : m'.wf = true := by
  obtain ⟨a, bs, -, hend, rfl⟩ := h
  exact Memory.wf_writeBytes hm bs hend

theorem StoresAboveFont.read_font {m m' : Memory} (h : StoresAboveFont m m') {a : Nat} (ha : a < 80) :
    m'.read a = m.read a := by
  obtain ⟨a₀, bs, hfont, -, rfl⟩ := h
  exact Memory.read_writeBytes_outside m bs (.inl (by omega))

/-- The checks of `MemWrite` pass exactly above the font and inside the address space (R56). -/
theorem firstFault_write_eq_none (s : State) {n : Nat} (hn : 1 ≤ n) :
    firstFault writeFault (s.eas n) = none ↔ 80 ≤ s.index.toNat ∧ s.index.toNat + n ≤ 4096 := by
  rw [firstFault_write s hn]
  split
  · exact iff_of_false (by simp) (by omega)
  · split
    · exact iff_of_false (by simp) (by omega)
    · exact iff_of_true rfl (by omega)

theorem exec_storesAboveFont {i : Instr} {s t : State} (h : exec i s = .next t) : StoresAboveFont s.mem t.mem := by
  rcases exec_mem_cases h with hm | ⟨bs, hlen, hcheck, hm⟩
  · exact .of_eq hm
  · obtain ⟨hfont, hend⟩ := (firstFault_write_eq_none s hlen).mp hcheck
    exact ⟨s.ea 0, bs, hfont, hend, hm⟩

theorem step_storesAboveFont {s t : State} (h : step s = .next t) : StoresAboveFont s.mem t.mem := by
  obtain ⟨-, ⟨-, rfl⟩ | ⟨w, -, -, rfl⟩ | ⟨w, i, -, -, hi⟩⟩ := step_cases h
  · exact .refl _
  · exact .refl _
  · exact exec_storesAboveFont hi

theorem StoresAboveFont.fontIntact {s t : State} (h : StoresAboveFont s.mem t.mem) {font : Config.Font}
    (hs : s.FontIntact font) : t.FontIntact font :=
  fun a => (h.read_font a.isLt).trans (hs a)

/-- Settles O14: a step's stores all lie above the font and inside the address space. -/
theorem stepKeepsMemoryCanonicalAndFont : Obligations.StepKeepsMemoryCanonicalAndFont := by
  intro font s t h
  have hstore := step_storesAboveFont h
  exact ⟨fun ⟨hwf, hfont⟩ => ⟨hstore.wf hwf, hstore.fontIntact hfont⟩, fun a => hstore.read_font⟩

/-! ### What a host operation does to the state (60_exceptions.md R230) -/

/-- The state after any host operation that has a step, by operation. Readings and refused operations leave it as it
was. -/
theorem hostStep_state_cases {font : Config.Font} {op : HostOp} {s t : State} {a : Answer}
    (h : hostStep font op s = .next (t, a)) :
    t = s ∨ (op = .initMachine ∧ t = s.initialized font) ∨
    (∃ bytes, op = .loadProgram bytes ∧ bytes.length ≤ 3584 ∧ t = s.loaded bytes) ∨
    (op = .executeOne ∧ step s = .next t) ∨ (op = .advanceTimers ∧ t = s.ticked) ∨
    (∃ k p, op = .setKey k p ∧ t = s.withKey k p) ∨
    ∃ r fps, op = .restore r ∧ r.toState s.draws = some (t, fps) := by
  unfold hostStep at h
  split at h
  next hrun =>
    cases op <;> simp only [runningOp] at h
    case initMachine =>
      cases h
      exact .inr (.inl ⟨rfl, rfl⟩)
    case loadProgram bytes =>
      split at h <;> cases h
      · exact .inl rfl
      · next hlen => exact .inr (.inr (.inl ⟨bytes, rfl, Nat.le_of_not_gt hlen, rfl⟩))
    case executeOne =>
      split at h <;> cases h
      next hstep => exact .inr (.inr (.inr (.inl ⟨rfl, hstep⟩)))
    case advanceTimers =>
      cases h
      exact .inr (.inr (.inr (.inr (.inl ⟨rfl, rfl⟩))))
    case setKey k p =>
      cases h
      exact .inr (.inr (.inr (.inr (.inr (.inl ⟨k, p, rfl, rfl⟩)))))
    case readFramebuffer | snapshot =>
      cases h
      exact .inl rfl
    case restore r =>
      split at h <;> cases h
      · exact .inl rfl
      · next fps hrec => exact .inr (.inr (.inr (.inr (.inr (.inr ⟨r, fps, rfl, hrec⟩)))))
  next hhalt =>
    split at h <;> cases h
    exact .inr (.inl ⟨rfl, rfl⟩)

/-- An operation stores above the font only, or makes a new machine, or replaces memory by a record's. -/
theorem hostStep_mem_cases {font : Config.Font} {op : HostOp} {s t : State} {a : Answer}
    (h : hostStep font op s = .next (t, a)) :
    StoresAboveFont s.mem t.mem ∨ t.mem = (State.resetWith font).mem ∨
    ∃ r fps, op = .restore r ∧ r.toState s.draws = some (t, fps) := by
  rcases hostStep_state_cases h with rfl | ⟨-, rfl⟩ | ⟨bytes, -, hlen, rfl⟩ | ⟨-, hstep⟩ | ⟨-, rfl⟩ |
    ⟨k, p, -, rfl⟩ | hrestore
  · exact .inl (.refl _)
  · exact .inr (.inl rfl)
  · exact .inl ⟨512, bytes, by simp, by omega, rfl⟩
  · exact .inl (step_storesAboveFont hstep)
  · exact .inl (.refl _)
  · exact .inl (.of_eq (by rw [withKey_keepsRest]))
  · exact .inr (.inr hrestore)

/-- The memory a restored state has: its record's 4096 bytes (R227). -/
theorem toState_mem {r : PersistedRecord} {d : Nat} {t : State} {fps : BitVec 32} (h : r.toState d = some (t, fps)) :
    ∃ l, r.memory = some (.bytes l) ∧ l.length = 4096 ∧ t.mem = Memory.ofBytes 0 l := by
  obtain ⟨-, mem, hmem, -, -, -, -, -, -, -, -, -, -, ht, -, -⟩ := toState_eq_some.mp h
  obtain ⟨l, hl, hv⟩ := bytesField_eq_some.mp hmem
  obtain ⟨hlen, rfl⟩ := vectorOf_eq_some hv
  exact ⟨_, hl, hlen, ht⟩

theorem wf_toState {r : PersistedRecord} {d : Nat} {t : State} {fps : BitVec 32} (h : r.toState d = some (t, fps)) :
    t.mem.wf = true := by
  obtain ⟨l, -, hlen, hmem⟩ := toState_mem h
  exact hmem ▸ Memory.wf_ofBytes l hlen.le

/-- A memory made of bytes that begin with FONT has FONT at 0..79. -/
theorem fontIntact_of_ofBytes {s : State} {font : Config.Font} {l : List Byte} (hmem : s.mem = Memory.ofBytes 0 l)
    (hlen : l.length = 4096) (hfont : l.take 80 = font.toList) : s.FontIntact font := by
  intro a
  have hread := Memory.read_ofBytes l (a := 0) (k := a.val) (by omega) (by omega)
  rw [Nat.zero_add] at hread
  calc s.mem.read a.val
      _ = l[a.val] := by rw [hmem, hread]
      _ = (l.take 80)[a.val]'(by simp; omega) := List.getElem_take.symm
      _ = font[a] := by simp [hfont]

theorem hostStep_keeps_wf {font : Config.Font} {op : HostOp} {s t : State} {a : Answer} (hs : s.mem.wf = true)
    (h : hostStep font op s = .next (t, a)) : t.mem.wf = true := by
  rcases hostStep_mem_cases h with hstore | hinit | ⟨r, fps, -, hrec⟩
  · exact hstore.wf hs
  · exact hinit ▸ wf_resetWith font
  · exact wf_toState hrec

theorem hostStep_keeps_font {font : Config.Font} {op : HostOp} {s t : State} {a : Answer} (hs : s.FontIntact font)
    (hrestore : ∀ r l, op = .restore r → r.memory = some (.bytes l) → l.take 80 = font.toList)
    (h : hostStep font op s = .next (t, a)) : t.FontIntact font := by
  rcases hostStep_mem_cases h with hstore | hinit | ⟨r, fps, hop, hrec⟩
  · exact hstore.fontIntact hs
  · exact fun k => hinit ▸ read_resetWith font k
  · obtain ⟨l, hl, hlen, hmem⟩ := toState_mem hrec
    exact fontIntact_of_ofBytes hmem hlen (hrestore r l hop hl)

/-- Settles O15: an operation stores above the font, or builds a machine with FONT, or takes the memory of a record. -/
theorem operationsKeepStackPointerAndFont : Obligations.OperationsKeepStackPointerAndFont := by
  intro font op s t a hwf h
  exact ⟨Fin.is_le t.sp, hostStep_keeps_wf hwf h, fun hfont hrestore => hostStep_keeps_font hfont hrestore h⟩

/-- Settles O13: the reset memory is canonical and has FONT, pc is 0x200 and every stack entry is 0. -/
theorem resetMeetsTheInvariants : Obligations.ResetMeetsTheInvariants := by
  intro font
  refine ⟨⟨wf_resetWith font, read_resetWith font⟩, (by decide : (0x0200 : Word).toNat ≤ 0x10FE), fun j => ?_⟩
  simp [State.resetWith, State.reset]

/-! ### What each instruction may write: the frame of every instruction (30_encoding.md R96) -/

/-- The components besides V that an instruction may write, with `status` where it may fault (R26 to R32, R60, R200). -/
def writesPart : Instr → List Part
  | .cls => [.pc, .fb]
  | .ret => [.pc, .sp, .status]
  | .call _ => [.pc, .stack, .sp, .status]
  | .rnd _ _ => [.pc, .draws]
  | .drw _ _ _ => [.pc, .fb, .status]
  | .skp _ | .sknp _ | .loadRegs _ => [.pc, .status]
  | .ldDtVx _ => [.pc, .dt]
  | .ldStVx _ => [.pc, .st]
  | .ldI _ | .addI _ | .ldF _ => [.pc, .index]
  | .ldB _ | .storeRegs _ => [.pc, .memory, .status]
  | .jp _ | .seImm _ _ | .sneImm _ _ | .seReg _ _ | .ldImm _ _ | .addImm _ _ | .ldReg _ _ | .orReg _ _ | .andReg _ _
  | .xorReg _ _ | .addReg _ _ | .subReg _ _ | .shr _ _ | .subnReg _ _ | .shl _ _ | .sneReg _ _ | .jpV0 _ | .ldVxDt _
  | .ldVxK _ | .nop => [.pc]

section Frames

variable {ps : List Part} {rs : List Reg} {s t u : State}

/-- A frame, component by component. -/
theorem onlyChanges_iff : OnlyChanges ps rs s t ↔
    ((.pc ∉ ps → t.pc = s.pc) ∧ (.index ∉ ps → t.index = s.index) ∧ (.stack ∉ ps → t.stack = s.stack) ∧
      (.sp ∉ ps → t.sp = s.sp) ∧ (.dt ∉ ps → t.dt = s.dt) ∧ (.st ∉ ps → t.st = s.st) ∧
      (.keys ∉ ps → t.keys = s.keys) ∧ (.fb ∉ ps → t.fb = s.fb) ∧
      (.memory ∉ ps → ∀ a, t.mem.read a = s.mem.read a) ∧ (.status ∉ ps → t.status = s.status) ∧
      (.draws ∉ ps → t.draws = s.draws)) ∧
    ∀ r, r ∉ rs → t.getV r = s.getV r := by
  constructor
  · rintro ⟨h, hv⟩
    exact ⟨⟨h .pc, h .index, h .stack, h .sp, h .dt, h .st, h .keys, h .fb, h .memory, h .status, h .draws⟩, hv⟩
  · rintro ⟨⟨hpc, hindex, hstack, hsp, hdt, hst, hkeys, hfb, hmemory, hstatus, hdraws⟩, hv⟩
    refine ⟨fun p => ?_, hv⟩
    cases p <;> assumption

theorem OnlyChanges.refl (ps : List Part) (rs : List Reg) (s : State) : OnlyChanges ps rs s s := by
  simp [onlyChanges_iff]

theorem Part.Same.trans {p : Part} (h : p.Same s t) (g : p.Same t u) : p.Same s u := by
  cases p
  case memory => exact fun a => (g a).trans (h a)
  all_goals exact Eq.trans g h

theorem OnlyChanges.trans (h : OnlyChanges ps rs s t) (g : OnlyChanges ps rs t u) : OnlyChanges ps rs s u :=
  ⟨fun p hp => (h.1 p hp).trans (g.1 p hp), fun r hr => (g.2 r hr).trans (h.2 r hr)⟩

theorem onlyChanges_setV {x : Reg} (s : State) (b : Byte) (hx : x ∈ rs) : OnlyChanges ps rs s (s.setV x b) := by
  refine onlyChanges_iff.mpr ⟨by simp, fun r hr => s.getV_setV_of_ne b ?_⟩
  rintro rfl
  exact hr hx

theorem onlyChanges_setPc (s : State) (p : Word) (hp : .pc ∈ ps) : OnlyChanges ps rs s (s.setPc p) := by
  simp [onlyChanges_iff, hp]

theorem onlyChanges_takeFault (s : State) {c : FaultReason} {w : Option Word} {n : Option FaultInfo}
    (hp : .status ∈ ps) : OnlyChanges ps rs s (s.takeFault c w n) := by
  simp [onlyChanges_iff, hp]

/-- The fetch advance and one write of a V register, the shape of most meanings. -/
theorem onlyChanges_advance_setV {x : Reg} (s : State) (b : Byte) (hp : .pc ∈ ps) (hx : x ∈ rs) :
    OnlyChanges ps rs s (s.advance.setV x b) :=
  (onlyChanges_setPc s _ hp).trans (onlyChanges_setV s.advance b hx)

theorem arithThenFlag_onlyChanges {x : Reg} {a f : Byte} (h : arithThenFlag x a f s = .next t) :
    OnlyChanges [.pc] [x, VF] s t := by
  cases h
  exact (onlyChanges_advance_setV s a (by simp) (by simp)).trans (onlyChanges_setV _ f (by simp))

theorem shiftReg_onlyChanges {p : ShiftVfResult} {d : ShiftDir} {x : Reg} (h : shiftReg p d x s = .next t) :
    OnlyChanges [.pc] [x, VF] s t := by
  unfold shiftReg at h
  split at h <;> cases h
  · exact onlyChanges_advance_setV s _ (by simp) (by simp)
  · exact (onlyChanges_advance_setV s _ (by simp) (by simp)).trans (onlyChanges_setV _ _ (by simp))

theorem storeAtI_onlyChanges {i : Instr} {bs : List Byte} (h : storeAtI i bs s = .next t) :
    OnlyChanges [.pc, .memory, .status] [] s t := by
  rcases storeAtI_cases h with ⟨c, -, rfl⟩ | ⟨-, rfl⟩
  · exact onlyChanges_takeFault s (by simp)
  · simp [onlyChanges_iff, State.getV]

theorem skipOnKey_onlyChanges {i : Instr} {x : Reg} {b : Bool} (h : skipOnKey i x b s = .next t) :
    OnlyChanges [.pc, .status] [] s t := by
  rcases skipOnKey_cases h with ⟨-, rfl⟩ | ⟨k, -, rfl⟩
  · exact onlyChanges_takeFault s (by simp)
  · exact onlyChanges_setPc s _ (by simp)

theorem execDrw_onlyChanges {x y : Reg} {n : BitVec 4} (h : execDrw x y n s = .next t) :
    OnlyChanges [.pc, .fb, .status] [VF] s t := by
  rcases execDrw_cases h with ⟨c, -, rfl⟩ | ⟨-, cv, -, rfl⟩
  · exact onlyChanges_takeFault s (by simp)
  · refine OnlyChanges.trans ?_ (onlyChanges_setV _ _ (by simp))
    simp [onlyChanges_iff, State.getV]

theorem addIndex_onlyChanges (clear : Bool) (x : Reg) (s : State) :
    OnlyChanges [.pc, .index] [VF] s (addIndex clear x s) := by
  have hflag := onlyChanges_advance_setV (ps := [.pc, .index]) (rs := [VF]) (x := VF) s
    (indexFlag clear (s.index.toNat + (s.getV x).toNat) (s.getV VF)) (by simp) (by simp)
  refine hflag.trans ?_
  simp [onlyChanges_iff, addIndex, State.getV]

theorem mem_regsTo {x r : Reg} : r ∈ regsTo x ↔ r ≤ x := by simp [regsTo]

/-- A block of registers from V0 to V[x] leaves the others (42_memory_index.md R156). -/
theorem getElem_setVFrom_of_not_mem {x r : Reg} (v : Vector Byte 16) {bs : List Byte} (hl : bs.length = x.val + 1)
    (hr : r ∉ regsTo x) : (setVFrom v 0 bs)[r] = v[r] := by
  have hxr : x.val < r.val := by simpa [mem_regsTo] using hr
  rw [getElem_setVFrom v bs 0 r (by omega), dif_neg (by omega)]

theorem execLoadRegs_onlyChanges {x : Reg} (h : execLoadRegs x s = .next t) :
    OnlyChanges [.pc, .status] (regsTo x) s t := by
  rcases execLoadRegs_cases h with ⟨c, -, rfl⟩ | ⟨-, rfl⟩
  · exact onlyChanges_takeFault s (by simp)
  · exact onlyChanges_iff.mpr ⟨by simp, fun r => getElem_setVFrom_of_not_mem s.v (by simp)⟩

theorem pc_mem_writesPart (i : Instr) : .pc ∈ writesPart i := by cases i <;> simp [writesPart]

/-- Every instruction changes only the components and the V registers it may write. -/
theorem exec_onlyChanges {i : Instr} (h : exec i s = .next t) : OnlyChanges (writesPart i) (writesV i) s t := by
  have hpc := pc_mem_writesPart i
  cases i <;> simp only [exec] at h
  case ret =>
    rcases execRet_cases h with ⟨-, rfl⟩ | ⟨_, rfl⟩
    · exact onlyChanges_takeFault s (by simp [writesPart])
    · simp [onlyChanges_iff, writesPart, State.getV]
  case call =>
    rcases execCall_cases h with ⟨-, rfl⟩ | ⟨_, rfl⟩
    · exact onlyChanges_takeFault s (by simp [writesPart])
    · simp [onlyChanges_iff, writesPart, State.getV]
  case ldVxK =>
    rcases execLdVxK_cases h with ⟨k, -, -, rfl⟩ | ⟨-, rfl⟩
    · exact onlyChanges_advance_setV s _ hpc (by simp [writesV])
    · exact .refl _ _ _
  case addReg | subReg | subnReg => exact arithThenFlag_onlyChanges h
  case shr | shl => exact shiftReg_onlyChanges h
  case drw => exact execDrw_onlyChanges h
  case skp | sknp => exact skipOnKey_onlyChanges h
  case ldB | storeRegs => exact storeAtI_onlyChanges h
  case loadRegs => exact execLoadRegs_onlyChanges h
  all_goals cases h
  case addI => exact addIndex_onlyChanges _ _ s
  case rnd x kk =>
    refine OnlyChanges.trans (t := rndWith (s.draw kk) x kk s) ?_ ?_
    · exact onlyChanges_advance_setV s _ hpc (by simp [writesV])
    · simp [onlyChanges_iff, writesPart, State.getV]
  case cls | ldI | ldF | ldDtVx | ldStVx => simp [onlyChanges_iff, writesPart, State.getV]
  case jp | seImm | sneImm | seReg | sneReg | jpV0 | nop => exact onlyChanges_setPc s _ hpc
  case ldImm | addImm | ldReg | orReg | andReg | xorReg | ldVxDt =>
    exact onlyChanges_advance_setV s _ hpc (by simp [writesV])

/-- Only the entry at sp of the stack can change: 2nnn writes no other (10_state.md R27). -/
theorem exec_keeps_stack_entry {i : Instr} (h : exec i s = .next t) {j : Fin 16} (hj : j.val ≠ s.sp.val) :
    t.stack[j] = s.stack[j] := by
  cases i
  case call nnn =>
    rcases execCall_cases h with ⟨-, rfl⟩ | ⟨_, rfl⟩
    · rfl
    · simp [hj.symm]
  all_goals
    obtain ⟨hparts, -⟩ := exec_onlyChanges h
    rw [show t.stack = s.stack from hparts .stack (by simp [writesPart])]

end Frames

/-- Settles O19: no row of the write table has the latches, and two have the framebuffer. -/
theorem keysAndFramebufferWriters : Obligations.KeysAndFramebufferWriters := by
  intro i s t h
  obtain ⟨hparts, -⟩ := exec_onlyChanges h
  refine ⟨hparts .keys (by cases i <;> simp [writesPart]), fun hcls hdrw => hparts .fb ?_⟩
  cases i <;> simp_all [writesPart]

/-- Settles O20: each component's writers are the rows that name it. -/
theorem indexStackAndMemoryWriters : Obligations.IndexStackAndMemoryWriters := by
  intro i s t h
  obtain ⟨hparts, -⟩ := exec_onlyChanges h
  refine ⟨fun hldI haddI hldF => hparts .index ?_, fun hcall => hparts .stack ?_, fun j => exec_keeps_stack_entry h,
    fun hcall hret => hparts .sp ?_, fun hldB hstore => hparts .memory ?_⟩
  all_goals cases i <;> simp_all [writesPart]

/-! ### What an instruction reads: two runs that differ in one V register (10_state.md R36) -/

section Varied

variable {r x y : Reg} {s t u : State} {b : Byte}

/-- Both meanings answer, and the two next states differ in V[r] at most. -/
def SameButV (r : Reg) (o o' : Host.Outcome State Fault Refusal) : Prop :=
  ∃ t u, o = .next t ∧ o' = .next u ∧ OnlyChanges [] [r] t u

theorem SameButV.next (h : OnlyChanges [] [r] t u) : SameButV r (.next t) (.next u) := ⟨t, u, rfl, rfl, h⟩

theorem onlyChanges_setV_self (r : Reg) (b : Byte) (t : State) : OnlyChanges [] [r] t (t.setV r b) :=
  onlyChanges_setV t b (by simp)

/-- The same write of a V register in both runs. -/
theorem OnlyChanges.setV_both {ps : List Part} {rs : List Reg} (h : OnlyChanges ps rs t u) (x : Reg) (b : Byte) :
    OnlyChanges ps rs (t.setV x b) (u.setV x b) := by
  refine ⟨fun p hp => ?_, fun q hq => ?_⟩
  · have hsame := h.1 p hp
    cases p <;> exact hsame
  · rw [State.getV_setV, State.getV_setV, h.2 q hq]

/-- A meaning that writes V[x] := `c` after the advance, whatever V[r] was. -/
theorem sameButV_setV (r x : Reg) (b c : Byte) (t : State) :
    SameButV r (.next (t.setV x c)) (.next ((t.setV r b).setV x c)) :=
  .next ((onlyChanges_setV_self r b t).setV_both x c)

theorem arithThenFlag_sameButV (a f : Byte) :
    SameButV r (arithThenFlag x a f s) (arithThenFlag x a f (s.setV r b)) :=
  .next (((onlyChanges_setV_self r b s.advance).setV_both x a).setV_both VF f)

theorem shiftReg_sameButV {p : ShiftVfResult} {d : ShiftDir} (hx : x ≠ r) :
    SameButV r (shiftReg p d x s) (shiftReg p d x (s.setV r b)) := by
  have hvary := onlyChanges_setV_self r b s.advance
  unfold shiftReg
  rw [State.getV_setV_of_ne s b hx]
  split
  · exact .next (hvary.setV_both _ _)
  · exact .next ((hvary.setV_both _ _).setV_both _ _)

/-- A fault is raised in both runs alike. -/
theorem raise_sameButV (i : Instr) (c : FaultCause) : SameButV r (raise i c s) (raise i c (s.setV r b)) :=
  .next (onlyChanges_setV_self r b (s.takeFault c.reason (some (encode i)) c.info))

/-- A store through I of the same bytes. -/
theorem storeAtI_sameButV (i : Instr) (bs : List Byte) :
    SameButV r (storeAtI i bs s) (storeAtI i bs (s.setV r b)) := by
  unfold storeAtI
  rw [show (s.setV r b).eas bs.length = s.eas bs.length from rfl]
  split
  · exact raise_sameButV i _
  · exact .next (onlyChanges_setV_self r b { s.advance with mem := s.mem.writeBytes (s.ea 0) bs })

theorem skipOnKey_sameButV (i : Instr) (p : Bool) (hx : x ≠ r) :
    SameButV r (skipOnKey i x p s) (skipOnKey i x p (s.setV r b)) := by
  unfold skipOnKey
  rw [State.getV_setV_of_ne s b hx]
  split
  · exact raise_sameButV i _
  · next k _ => exact .next (onlyChanges_setV_self r b (s.advance.skipIf (s.keys[k] == p)))

theorem execDrw_sameButV {n : BitVec 4} (hx : x ≠ r) (hy : y ≠ r) :
    SameButV r (execDrw x y n s) (execDrw x y n (s.setV r b)) := by
  unfold execDrw
  rw [State.getV_setV_of_ne s b hx, State.getV_setV_of_ne s b hy,
    show (s.setV r b).eas n.toNat = s.eas n.toNat from rfl]
  split
  · exact raise_sameButV _ _
  · exact sameButV_setV r VF b _ { s.advance with fb := _ }

/-- Where two register files agree on V[q], they agree on it after the same block is written from V0 on. -/
theorem getElem_setVFrom_congr {v w : Vector Byte 16} {q : Reg} (h : v[q] = w[q]) {bs : List Byte}
    (hl : bs.length ≤ 16) : (setVFrom v 0 bs)[q] = (setVFrom w 0 bs)[q] := by
  rw [getElem_setVFrom v bs 0 q (by omega), getElem_setVFrom w bs 0 q (by omega), h]

theorem execLoadRegs_sameButV : SameButV r (execLoadRegs x s) (execLoadRegs x (s.setV r b)) := by
  unfold execLoadRegs
  rw [show (s.setV r b).eas (x.val + 1) = s.eas (x.val + 1) from rfl]
  split
  · exact raise_sameButV _ _
  · refine .next (onlyChanges_iff.mpr ⟨by simp, fun q hq => getElem_setVFrom_congr ?_ (by simp)⟩)
    exact s.getV_setV_of_ne b (List.ne_of_not_mem_cons hq)

theorem execLdVxK_sameButV : SameButV r (execLdVxK x s) (execLdVxK x (s.setV r b)) := by
  unfold execLdVxK
  rw [State.setV_keys]
  split
  · exact sameButV_setV r x b _ s.advance
  · exact .next (onlyChanges_setV_self r b (s.advance.setPc (s.advance.pc - 2)))

theorem State.push_setV (w : Word) : (s.setV r b).push w = (s.push w).map (·.setV r b) := by
  by_cases hs : s.sp.val < 16
  · simp [State.push, hs]
    rfl
  · simp [State.push, hs]

theorem State.pop_setV : (s.setV r b).pop = s.pop.map fun popped => (popped.1, popped.2.setV r b) := by
  by_cases hs : 0 < s.sp.val
  · simp [State.pop, hs]
    rfl
  · simp [State.pop, hs]

theorem execCall_sameButV (nnn : Addr12) : SameButV r (execCall nnn s) (execCall nnn (s.setV r b)) := by
  unfold execCall
  rw [show (s.setV r b).advance.pc = s.advance.pc from rfl, State.push_setV]
  cases s.push s.advance.pc with
  | none => exact raise_sameButV _ _
  | some t => exact .next (onlyChanges_setV_self r b (t.setPc (immAddr nnn)))

theorem execRet_sameButV : SameButV r (execRet s) (execRet (s.setV r b)) := by
  unfold execRet
  rw [State.pop_setV]
  cases s.pop with
  | none => exact raise_sameButV _ _
  | some popped => exact .next (onlyChanges_setV_self r b (popped.2.setPc popped.1))

/-- What Fx55 stores depends on V0..V[x] only (42_memory_index.md R155). -/
theorem State.regsUpTo_setV (s : State) (b : Byte) (h : r ∉ regsTo x) : (s.setV r b).regsUpTo x = s.regsUpTo x := by
  have hlen := s.length_regsUpTo x
  have hlen' := (s.setV r b).length_regsUpTo x
  refine List.ext_getElem (by rw [hlen, hlen']) fun k hk hk' => ?_
  have hkr : (⟨k, by omega⟩ : Reg) ≠ r := by
    intro e
    exact h (e ▸ mem_regsTo.mpr (Fin.mk_le_of_le_val (by omega)))
  exact (State.getElem_regsUpTo _ x ⟨k, by omega⟩ hk).trans
    ((s.getV_setV_of_ne b hkr).trans (State.getElem_regsUpTo s x ⟨k, by omega⟩ hk').symm)

theorem getV_addIndex (clear : Bool) (s : State) (x q : Reg) : (addIndex clear x s).getV q =
    if q = VF then indexFlag clear (s.index.toNat + (s.getV x).toNat) (s.getV VF) else s.getV q :=
  s.advance.getV_setV VF q _

/-- Fx1E keeps VF or overwrites it, and VF has no influence besides (42_memory_index.md R151, R152). -/
theorem addIndex_sameButV (clear : Bool) (hx : x ≠ r) :
    SameButV r (.next (addIndex clear x s)) (.next (addIndex clear x (s.setV r b))) := by
  have hVx := s.getV_setV_of_ne b hx
  refine .next (onlyChanges_iff.mpr ⟨by simp [addIndex, hVx], fun q hq => ?_⟩)
  have hVq := s.getV_setV_of_ne b (List.ne_of_not_mem_cons hq)
  rw [getV_addIndex, getV_addIndex, hVx, hVq]
  split
  · next hVF => rw [← hVF, hVq]; rfl
  · rfl

end Varied

/-- A V register outside the "reads" column of R36 has no influence on anything but itself. -/
theorem exec_sameButV {i : Instr} {r : Reg} (s : State) (b : Byte) (h : r ∉ readsV i) :
    SameButV r (exec i s) (exec i (s.setV r b)) := by
  have hne : ∀ x ∈ readsV i, x ≠ r := fun x hx e => h (e ▸ hx)
  have hread : ∀ x ∈ readsV i, (s.setV r b).getV x = s.getV x := fun x hx => s.getV_setV_of_ne b (hne x hx)
  cases i <;> simp only [exec]
  case ret => exact execRet_sameButV
  case call nnn => exact execCall_sameButV nnn
  case ldVxK => exact execLdVxK_sameButV
  case loadRegs => exact execLoadRegs_sameButV
  case storeRegs x =>
    unfold execStoreRegs
    rw [s.regsUpTo_setV b h]
    exact storeAtI_sameButV _ _
  all_goals simp only [readsV, List.mem_cons, List.not_mem_nil, or_false, forall_eq_or_imp, forall_eq] at hne hread
  case skp | sknp => exact skipOnKey_sameButV _ _ hne
  case drw => exact execDrw_sameButV hne.1 hne.2
  case shr | shl => exact shiftReg_sameButV hne
  case addI => exact addIndex_sameButV _ hne
  case cls => exact .next (onlyChanges_setV_self r b { s.advance with fb := clearFb })
  case jp nnn => exact .next (onlyChanges_setV_self r b (s.advance.setPc (immAddr nnn)))
  case ldI nnn => exact .next (onlyChanges_setV_self r b { s.advance with index := immAddr nnn })
  case nop => exact .next (onlyChanges_setV_self r b s.advance)
  case seImm | sneImm | seReg | sneReg | jpV0 | ldF | ldDtVx | ldStVx =>
    simp only [execSeImm, execSneImm, execSeReg, execSneReg, execJpV0, execLdF, execLdDtVx, execLdStVx, hread]
    exact .next (onlyChanges_setV_self r b _)
  case addReg | subReg | subnReg =>
    simp only [execAddReg, execSubReg, execSubnReg, hread]
    exact arithThenFlag_sameButV _ _
  case ldB =>
    simp only [execLdB, hread]
    exact storeAtI_sameButV _ _
  case ldImm x kk => exact sameButV_setV r x b kk s.advance
  case ldVxDt x => exact sameButV_setV r x b s.dt s.advance
  case addImm | ldReg | orReg | andReg | xorReg =>
    simp only [execAddImm, execLdReg, execOrReg, execAndReg, execXorReg, hread]
    exact sameButV_setV r _ b _ s.advance
  case rnd x kk => exact sameButV_setV r x b (s.draw kk &&& kk) { s.advance with draws := s.draws + 1 }

/-- Settles O17: the frame of every instruction gives the "writes" column, two runs compared the "reads" column. -/
theorem registerAccessMatrix : Obligations.RegisterAccessMatrix :=
  ⟨fun _ _ _ r h hr => (exec_onlyChanges h).2 r hr, fun _ s _ b h => exec_sameButV s b h⟩

end Sys2Proof.Machine
end

section
/-! PROOF. What a fetch and a load read after a store, and the fetch past the end of memory (20_memory.md): O6, O38,
O39. -/

namespace Sys2Proof.Machine

/-! ### The fetch past the end (20_memory.md R57) -/

theorem step_of_pc_past_end {s : State} (hrun : s.Running) (hpc : s.pc.toNat > 4094) :
    step s = .next (s.takeFault .fetchOutOfBounds none none) := by
  have hstatus : s.status = .running := hrun
  simp only [step, hstatus, s.fetch_eq_none hpc]

/-- Settles O6: the fetch finds no word, and a taken fault changes only the status. -/
theorem fetchPastTheEndHalts : Obligations.FetchPastTheEndHalts :=
  fun s hrun hpc => ⟨_, step_of_pc_past_end hrun hpc, haltedFrom_takeFault s _ _ _⟩

/-! ### A store through I that passes its checks (42_memory_index.md R154, R155) -/

/-- The bytes a store through I takes from I on all lie above the font and inside the address space. -/
def State.CanStore (s : State) (n : Nat) : Prop := 1 ≤ n ∧ 80 ≤ s.index.toNat ∧ s.index.toNat + n ≤ 4096

section Store

variable {i : Instr} {bs : List Byte} {s t : State}

theorem storeAtI_of_canStore (hstore : s.CanStore bs.length) :
    storeAtI i bs s = .next { s.advance with mem := s.mem.writeBytes (s.ea 0) bs } := by
  obtain ⟨hlen, hrange⟩ := hstore
  simp only [storeAtI, (firstFault_write_eq_none s hlen).mpr hrange]

theorem storeAtI_mem (hstore : s.CanStore bs.length) (h : storeAtI i bs s = .next t) :
    t.mem = s.mem.writeBytes (s.ea 0) bs := by
  rw [storeAtI_of_canStore hstore] at h
  cases h
  rfl

theorem read_ea_of_storeAtI (hwf : s.mem.wf = true) (hstore : s.CanStore bs.length) (h : storeAtI i bs s = .next t)
    {k : Nat} (hk : k < bs.length) : t.mem.read (s.ea k) = bs[k] := by
  rw [storeAtI_mem hstore h]
  obtain ⟨-, -, hend⟩ := hstore
  exact Memory.read_writeBytes hwf bs hk hend

theorem read_outside_of_storeAtI (hstore : s.CanStore bs.length) (h : storeAtI i bs s = .next t) {a : Nat}
    (ha : a < s.ea 0 ∨ s.ea bs.length ≤ a) : t.mem.read a = s.mem.read a := by
  rw [storeAtI_mem hstore h]
  exact Memory.read_writeBytes_outside s.mem bs ha

/-- Every byte after the store is the one stored there, or the old one where none was. -/
theorem afterStore_of_storeAtI {value : Nat → Nat} (hwf : s.mem.wf = true) (hstore : s.CanStore bs.length)
    (h : storeAtI i bs s = .next t) (hvalue : ∀ k (hk : k < bs.length), bs[k].toNat = value k) (a : Nat) :
    AfterStore s bs.length value a (t.mem.read a) := by
  refine ⟨?_, read_outside_of_storeAtI hstore h⟩
  rintro k hk rfl
  rw [read_ea_of_storeAtI hwf hstore h hk, hvalue k hk]

/-- The fetch reads memory as the store left it (20_memory.md R67): `AfterStore` holds at both its positions. -/
theorem fetch_of_storeAtI {value : Nat → Nat} (hwf : s.mem.wf = true) (hstore : s.CanStore bs.length)
    (h : storeAtI i bs s = .next t) (hvalue : ∀ k (hk : k < bs.length), bs[k].toNat = value k)
    (hpc : t.pc.toNat ≤ 4094) :
    ∃ hi lo, t.fetch = some (joinBytes hi lo) ∧ AfterStore s bs.length value t.pc.toNat hi ∧
      AfterStore s bs.length value (t.pc.toNat + 1) lo :=
  have hbyte := afterStore_of_storeAtI hwf hstore h hvalue
  ⟨_, _, t.fetch_eq hpc, hbyte _, hbyte _⟩

end Store

/-! ### The bytes that Fx55 and Fx33 store -/

theorem State.toNat_getElem_regsUpTo (s : State) (x : Reg) (k : Nat) (hk : k < (s.regsUpTo x).length) :
    (s.regsUpTo x)[k].toNat = (s.getV (Fin.ofNat 16 k)).toNat := by
  have hlen := s.length_regsUpTo x
  have hreg : Fin.ofNat 16 k = ⟨k, by omega⟩ := Fin.ext (Nat.mod_eq_of_lt (by omega))
  rw [hreg, ← s.getElem_regsUpTo x ⟨k, by omega⟩ hk]

/-- Digit `k` of a byte, hundreds first. -/
theorem toNat_getElem_bcdDigits (b : Byte) (k : Nat) (hk : k < (bcdDigits b).length) :
    (bcdDigits b)[k].toNat = b.toNat / 10 ^ (2 - k) % 10 := by
  have hb := b.isLt
  match k, hk with
  | 0, _ | 1, _ | 2, _ => simp [bcdDigits]; omega

theorem State.canStore_regsUpTo {s : State} {x : Reg} (hfont : 80 ≤ s.index.toNat)
    (hend : s.index.toNat + x.val ≤ 4095) : s.CanStore (s.regsUpTo x).length := by
  rw [s.length_regsUpTo x]
  exact ⟨by omega, hfont, by omega⟩

theorem State.canStore_bcdDigits {s : State} {x : Reg} (hfont : 80 ≤ s.index.toNat)
    (hend : s.index.toNat + 2 ≤ 4095) : s.CanStore (bcdDigits (s.getV x)).length :=
  ⟨(by decide : 1 ≤ 3), hfont, Nat.succ_le_succ hend⟩

/-- Settles O38: both instructions are the one store through I, which the fetch after it sees. -/
theorem nextFetchSeesTheStore : Obligations.NextFetchSeesTheStore := by
  intro s t x hwf hfont hpc
  constructor
  · intro hend h
    rw [← s.length_regsUpTo x]
    exact fetch_of_storeAtI hwf (s.canStore_regsUpTo hfont hend) h (s.toNat_getElem_regsUpTo x) hpc
  · intro hend h
    exact fetch_of_storeAtI hwf (s.canStore_bcdDigits hfont hend) h (toNat_getElem_bcdDigits _) hpc

/-! ### A load through I (42_memory_index.md R156) -/

theorem execLoadRegs_of_inBounds {s : State} {x : Reg} (hend : s.index.toNat + x.val ≤ 4095) :
    execLoadRegs x s = .next { s.advance with v := setVFrom s.v 0 (s.mem.readBytes (s.ea 0) (x.val + 1)) } := by
  have hcheck : firstFault readFault (s.eas (x.val + 1)) = none := by
    rw [firstFault_read, if_neg (by omega)]
  simp only [execLoadRegs, hcheck]

/-- Register `r` of V0..V[x] after a block of bytes is read into them. -/
theorem getElem_setVFrom_readBytes (v : Vector Byte 16) (m : Memory) (a : Nat) {x r : Reg} (hr : r ≤ x) :
    (setVFrom v 0 (m.readBytes a (x.val + 1)))[r] = m.read (a + r.val) := by
  have hrx : r.val ≤ x.val := hr
  rw [getElem_setVFrom _ _ _ _ (by simp), dif_pos (by simp; omega), Memory.getElem_readBytes, Nat.sub_zero]

/-- Fx65 inside the address space answers, and V[r] of V0..V[x] then holds the byte at I + r. -/
theorem execLoadRegs_getV {s : State} {x : Reg} (hend : s.index.toNat + x.val ≤ 4095) :
    ∃ t, execLoadRegs x s = .next t ∧ ∀ r : Reg, r ≤ x → t.getV r = s.mem.read (s.ea r.val) :=
  ⟨_, execLoadRegs_of_inBounds hend, fun _ hr => getElem_setVFrom_readBytes s.v s.mem (s.ea 0) hr⟩

/-- Settles O39: the load reads the addresses I + r of the memory as stored, and the store put V[r] there. -/
theorem loadAfterStoreReadsBack : Obligations.LoadAfterStoreReadsBack := by
  intro s t u x hwf hfont hend h hmem hindex
  have hstore := s.canStore_regsUpTo hfont hend
  obtain ⟨hparts, -⟩ := storeAtI_onlyChanges h
  have hsame : u.index = s.index := hindex.trans (hparts .index (by simp))
  obtain ⟨v, hload, hv⟩ := execLoadRegs_getV (s := u) (x := x) (by rwa [hsame])
  refine ⟨v, hload, fun r hr => ?_⟩
  have hlen : r.val < (s.regsUpTo x).length := by
    rw [s.length_regsUpTo x]
    exact Nat.lt_succ_of_le hr
  calc v.getV r
      _ = u.mem.read (u.ea r.val) := hv r hr
      _ = t.mem.read (s.ea r.val) := by rw [hmem, State.ea_eq, State.ea_eq, hsame]
      _ = (s.regsUpTo x)[r.val] := read_ea_of_storeAtI hwf hstore h hlen
      _ = s.getV r := s.getElem_regsUpTo x r hlen

end Sys2Proof.Machine
end

section
/-! PROOF. Decoding, encoding and the legal words, and the step of a decoded and of an illegal word (30_encoding.md):
O1, O2, O3, O4, O5, O7, O11. -/

namespace Sys2Proof

/-! ### A row's pattern as its match and mask columns (30_encoding.md R83, R84) -/

/-- Words are equal when their nibbles are. -/
theorem word_eq_iff_nibbles {w w' : Word} :
    w = w' ↔ nibble w 3 = nibble w' 3 ∧ nibble w 2 = nibble w' 2 ∧ nibble w 1 = nibble w' 1 ∧
      nibble w 0 = nibble w' 0 := by
  refine ⟨by rintro rfl; simp, fun ⟨h3, h2, h1, h0⟩ => ?_⟩
  rw [← ofNibbles_nibble w, ← ofNibbles_nibble w', h3, h2, h1, h0]

theorem nibble_and (w w' : Word) (k : Nat) : nibble (w &&& w') k = nibble w k &&& nibble w' k :=
  BitVec.extractLsb'_and

/-- The mask nibble of a pattern's digit: a field letter masks its nibble out. -/
def digitMask (d : Option (BitVec 4)) : BitVec 4 := if d.isSome then 0xF else 0

theorem digitMatches_iff_mask (d : Option (BitVec 4)) (n : BitVec 4) :
    digitMatches d n = true ↔ n &&& digitMask d = d.getD 0 := by
  cases d with
  | none => simp [digitMatches, digitMask]
  | some c =>
    have hall : n &&& 15#4 = n := BitVec.and_allOnes
    simp [digitMatches, digitMask, hall, eq_comm (a := c)]

/-- A row's match and mask, made from its pattern. -/
def OpRow.columns (r : OpRow) : Word × Word :=
  (ofNibbles (r.d3.getD 0) (r.d2.getD 0) (r.d1.getD 0) (r.d0.getD 0),
   ofNibbles (digitMask r.d3) (digitMask r.d2) (digitMask r.d1) (digitMask r.d0))

theorem maskRows_eq_map_columns : maskRows = opcodeTable.map OpRow.columns := by decide

theorem OpRow.accepts_iff_columns (r : OpRow) (w : Word) :
    r.accepts w = true ↔ w &&& r.columns.2 = r.columns.1 := by
  simp only [OpRow.accepts, OpRow.columns, word_eq_iff_nibbles, nibble_and, nibble3_ofNibbles, nibble2_ofNibbles,
    nibble1_ofNibbles, nibble0_ofNibbles, Bool.and_eq_true, digitMatches_iff_mask, and_assoc]

/-- On the bits that both mask, any two rows ask for different values. -/
theorem maskRows_pairwise_clash : maskRows.Pairwise fun p q => p.1 &&& q.2 ≠ q.1 &&& p.2 := by decide

/-- So no word matches two of them. -/
theorem not_both_match {p q : Word × Word} (hclash : p.1 &&& q.2 ≠ q.1 &&& p.2) {w : Word} (hp : w &&& p.2 = p.1)
    (hq : w &&& q.2 = q.1) : False := by
  rw [← hp, ← hq] at hclash
  exact hclash (by ac_rfl)

/-! ### Rows by number -/

/-- Row `j` of the opcode table. -/
def opcodeRow (j : Fin 35) : OpRow := opcodeTable[j]

theorem opcodeRow_mem (j : Fin 35) : opcodeRow j ∈ opcodeTable := List.getElem_mem _

theorem exists_opcodeRow_of_mem {r : OpRow} (h : r ∈ opcodeTable) : ∃ j, opcodeRow j = r := by
  obtain ⟨j, hj, rfl⟩ := List.getElem_of_mem h
  exact ⟨⟨j, hj⟩, rfl⟩

theorem maskRows_getElem? (j : Fin 35) : maskRows[j.val]? = some (opcodeRow j).columns := by
  rw [maskRows_eq_map_columns, List.getElem?_map, List.getElem?_eq_getElem j.isLt]
  rfl

theorem opcodeRow_accepts_unique {j k : Fin 35} {w : Word} (hj : (opcodeRow j).accepts w = true)
    (hk : (opcodeRow k).accepts w = true) : j = k := by
  rw [OpRow.accepts_iff_columns] at hj hk
  have hclash := maskRows_pairwise_clash
  rw [maskRows_eq_map_columns, List.pairwise_map, List.pairwise_iff_getElem] at hclash
  rcases lt_trichotomy j k with hlt | heq | hgt
  · exact (not_both_match (hclash j k j.isLt k.isLt hlt) hj hk).elim
  · exact heq
  · exact (not_both_match (hclash k j k.isLt j.isLt hgt) hk hj).elim

/-! ### The decoder -/

/-- What decodes is what an accepting row builds. -/
theorem exists_row_of_decodeWord {w : Word} {i : Instr} (h : decodeWord w = some i) :
    ∃ r ∈ opcodeTable, r.accepts w = true ∧ r.build w = i := by
  obtain ⟨r, hr, hbuild⟩ := Option.map_eq_some_iff.mp h
  exact ⟨r, List.mem_of_find?_eq_some hr, by simpa using List.find?_some hr, hbuild⟩

theorem decodeWord_eq_none {w : Word} : decodeWord w = none ↔ ∀ r ∈ opcodeTable, r.accepts w ≠ true := by
  simp only [decodeWord, Option.map_eq_none_iff, List.find?_eq_none]

/-- The first row that accepts a word is the only one. -/
theorem decodeWord_eq_build {j : Fin 35} {w : Word} (h : (opcodeRow j).accepts w = true) :
    decodeWord w = some ((opcodeRow j).build w) := by
  have hsome : decodeWord w ≠ none := fun hnone => decodeWord_eq_none.mp hnone _ (opcodeRow_mem j) h
  obtain ⟨i, hi⟩ := Option.ne_none_iff_exists'.mp hsome
  obtain ⟨r, hr, hacc, rfl⟩ := exists_row_of_decodeWord hi
  obtain ⟨k, rfl⟩ := exists_opcodeRow_of_mem hr
  rw [hi, opcodeRow_accepts_unique hacc h]

/-! ### Encoding, then decoding -/

theorem OpRow.accepts_ofNibbles (r : OpRow) (a b c d : BitVec 4) : r.accepts (ofNibbles a b c d) =
    (digitMatches r.d3 a && digitMatches r.d2 b && digitMatches r.d1 c && digitMatches r.d0 d) := by
  simp only [OpRow.accepts, nibble3_ofNibbles, nibble2_ofNibbles, nibble1_ofNibbles, nibble0_ofNibbles]

/-- An instruction's row accepts its word. -/
theorem accepts_encode (i : Instr) : (opcodeRow i.rowIndex).accepts (encode i) = true := by
  cases i
  case cls | ret | nop => decide
  all_goals
    simp only [encode, ofXyn, ofXkk_eq, ofNnn_eq, OpRow.accepts_ofNibbles]
    rfl

/-- An instruction's row makes it again from its word: every field comes back. -/
theorem build_encode (i : Instr) : (opcodeRow i.rowIndex).build (encode i) = i := by
  cases i
  case cls | ret | nop => rfl
  case jp nnn | call nnn | ldI nnn | jpV0 nnn => exact congrArg _ (fieldNnn_ofNnn _ nnn)
  case drw x y n =>
    exact congr (congr (congrArg _ (fieldX_ofXyn _ x y n)) (fieldY_ofXyn _ x y n)) (fieldN_ofXyn _ x y n)
  case seImm x kk | sneImm x kk | ldImm x kk | addImm x kk | rnd x kk =>
    exact congr (congrArg _ (fieldX_ofXkk _ x kk)) (fieldKk_ofXkk _ x kk)
  case seReg x y | ldReg x y | orReg x y | andReg x y | xorReg x y | addReg x y | subReg x y | shr x y | subnReg x y |
      shl x y | sneReg x y =>
    exact congr (congrArg _ (fieldX_ofXyn _ x y _)) (fieldY_ofXyn _ x y _)
  case skp x | sknp x | ldVxDt x | ldDtVx x | ldStVx x | addI x | ldVxK x | ldF x | ldB x | storeRegs x | loadRegs x =>
    exact congrArg _ (fieldX_ofXkk _ x _)

theorem decodeWord_encode (i : Instr) : decodeWord (encode i) = some i := by
  rw [decodeWord_eq_build (accepts_encode i), build_encode]

/-! ### Decoding, then encoding -/

theorem ofNnn_fieldNnn (op : BitVec 4) (w : Word) :
    ofNnn op (fieldNnn w) = ofNibbles op (nibble w 2) (nibble w 1) (nibble w 0) := by
  apply BitVec.eq_of_toNat_eq
  simp only [toNat_ofNnn, toNat_fieldNnn, toNat_ofNibbles, toNat_nibble]
  omega

theorem ofXkk_fields (op : BitVec 4) (w : Word) :
    ofXkk op (fieldX w) (fieldKk w) = ofNibbles op (nibble w 2) (nibble w 1) (nibble w 0) := by
  apply BitVec.eq_of_toNat_eq
  simp only [toNat_ofXkk, toNat_fieldX, toNat_fieldKk, toNat_ofNibbles, toNat_nibble]
  omega

theorem rowIndex_build (j : Fin 35) (w : Word) : ((opcodeRow j).build w).rowIndex = j := by
  fin_cases j <;> rfl

/-- A pattern filled in from a word: its digits, and the word's nibbles at the field letters. -/
def OpRow.fill (r : OpRow) (w : Word) : Word :=
  ofNibbles (r.d3.getD (nibble w 3)) (r.d2.getD (nibble w 2)) (r.d1.getD (nibble w 1)) (r.d0.getD (nibble w 0))

theorem OpRow.fill_of_accepts {r : OpRow} {w : Word} (h : r.accepts w = true) : r.fill w = w := by
  have hdigit : ∀ (d : Option (BitVec 4)) (n : BitVec 4), digitMatches d n = true → d.getD n = n := by
    intro d n hd
    cases d with
    | none => rfl
    | some c => exact eq_of_beq hd
  simp only [OpRow.accepts, Bool.and_eq_true] at h
  obtain ⟨⟨⟨h3, h2⟩, h1⟩, h0⟩ := h
  rw [OpRow.fill, hdigit _ _ h3, hdigit _ _ h2, hdigit _ _ h1, hdigit _ _ h0, ofNibbles_nibble]

theorem encode_cls : encode .cls = ofNibbles 0 0 0xE 0 := by decide

theorem encode_ret : encode .ret = ofNibbles 0 0 0xE 0xE := by decide

theorem encode_nop : encode .nop = ofNibbles 0 0 0 0 := by decide

/-- What a row builds from any word encodes as the row's pattern filled in from the word. Row by row, named by the
row's instruction. -/
theorem encode_build_rowIndex (i : Instr) (w : Word) :
    encode ((opcodeRow i.rowIndex).build w) = (opcodeRow i.rowIndex).fill w := by
  cases i
  case cls => exact encode_cls
  case ret => exact encode_ret
  case nop => exact encode_nop
  case jp | call | ldI | jpV0 => exact ofNnn_fieldNnn _ w
  case seImm | sneImm | ldImm | addImm | rnd => exact ofXkk_fields _ w
  case drw | seReg | ldReg | orReg | andReg | xorReg | addReg | subReg | shr | subnReg | shl | sneReg => rfl
  case skp | sknp | ldVxDt | ldDtVx | ldStVx | addI | ldVxK | ldF | ldB | storeRegs | loadRegs => exact ofXkk_eq _ _ _

theorem encode_build (j : Fin 35) (w : Word) : encode ((opcodeRow j).build w) = (opcodeRow j).fill w := by
  have h := encode_build_rowIndex ((opcodeRow j).build w) w
  rwa [rowIndex_build] at h

theorem encode_of_decodeWord {w : Word} {i : Instr} (h : decodeWord w = some i) : encode i = w := by
  obtain ⟨r, hr, hacc, rfl⟩ := exists_row_of_decodeWord h
  obtain ⟨j, rfl⟩ := exists_opcodeRow_of_mem hr
  rw [encode_build, OpRow.fill_of_accepts hacc]

theorem decodeWord_eq_some_iff (w : Word) (i : Instr) : decodeWord w = some i ↔ encode i = w :=
  ⟨encode_of_decodeWord, fun h => h ▸ decodeWord_encode i⟩

theorem decode_encodeBytes_append (i : Instr) (rest : List Byte) : decode (encodeBytes i ++ rest) = .ok (i, rest) := by
  simp only [encodeBytes, List.cons_append, List.nil_append, decode, joinBytes_highByte_lowByte, decodeWord_encode]

/-- Settles O1: exactly one row accepts an instruction's word, and it takes apart what the encoder put together. -/
theorem decodeAndEncodeAreInverse : Obligations.DecodeAndEncodeAreInverse :=
  ⟨decodeWord_eq_some_iff, decode_encodeBytes_append⟩

/-- Settles O4: each word is its instruction's encoding, and 0123 matches no row. -/
theorem specWordsDecodeAsListed : Obligations.SpecWordsDecodeAsListed :=
  ⟨decodeWord_encode (.addReg 0 1), decodeWord_encode (.call 0x300), decodeWord_encode (.seImm 3 0x42),
    decodeWord_encode (.addI 5), decodeWord_encode (.drw 1 2 5), decodeWord_encode (.skp 4), by decide⟩

/-! ### The match and mask columns (R84) -/

/-- A legal word matches the columns of its instruction's row and of no other. -/
theorem columns_match_iff_rowIndex {w : Word} {i : Instr} (h : decodeWord w = some i) (j : Fin 35) :
    w &&& (opcodeRow j).columns.2 = (opcodeRow j).columns.1 ↔ j = i.rowIndex := by
  obtain rfl := encode_of_decodeWord h
  rw [← OpRow.accepts_iff_columns]
  exact ⟨fun hj => opcodeRow_accepts_unique hj (accepts_encode i), fun hj => hj ▸ accepts_encode i⟩

theorem decodeWord_eq_none_iff_columns (w : Word) :
    decodeWord w = none ↔ ∀ row ∈ maskRows, w &&& row.2 ≠ row.1 := by
  rw [decodeWord_eq_none, maskRows_eq_map_columns, List.forall_mem_map]
  simp only [OpRow.accepts_iff_columns, ne_eq]

/-- Settles O3: the columns are the patterns', row by row. -/
theorem matchAndMaskDecideDecoding : Obligations.MatchAndMaskDecideDecoding := by
  refine ⟨rfl, fun w i h j row hrow => ?_, decodeWord_eq_none_iff_columns⟩
  obtain rfl : (opcodeRow j).columns = row := Option.some.inj ((maskRows_getElem? j).symm.trans hrow)
  exact columns_match_iff_rowIndex h j

/-! ### The legal words (R85) -/

section
open Laws.EncodesLegal

theorem legalWord_encode : ∀ i : Instr, legalWord (encode i) = true
  | .cls => cls
  | .ret => ret
  | .jp nnn => jp nnn
  | .call nnn => call nnn
  | .seImm x kk => seImm x kk
  | .sneImm x kk => sneImm x kk
  | .seReg x y => seReg x y
  | .ldImm x kk => ldImm x kk
  | .addImm x kk => addImm x kk
  | .ldReg x y => ldReg x y
  | .orReg x y => orReg x y
  | .andReg x y => andReg x y
  | .xorReg x y => xorReg x y
  | .addReg x y => addReg x y
  | .subReg x y => subReg x y
  | .shr x y => shr x y
  | .subnReg x y => subnReg x y
  | .shl x y => shl x y
  | .sneReg x y => sneReg x y
  | .ldI nnn => ldI nnn
  | .jpV0 nnn => jpV0 nnn
  | .rnd x kk => rnd x kk
  | .drw x y n => drw x y n
  | .skp x => skp x
  | .sknp x => sknp x
  | .ldVxDt x => ldVxDt x
  | .ldDtVx x => ldDtVx x
  | .ldStVx x => ldStVx x
  | .addI x => addI x
  | .ldVxK x => ldVxK x
  | .ldF x => ldF x
  | .ldB x => ldB x
  | .storeRegs x => storeRegs x
  | .loadRegs x => loadRegs x
  | .nop => nop

end

/-- The ten top nibbles without a constraint. -/
theorem exists_encode_of_free_top (w : Word) {d : BitVec 4} (hd : d ∈ [1, 2, 3, 4, 6, 7, 0xA, 0xB, 0xC, 0xD]) :
    ∃ i, encode i = ofNibbles d (nibble w 2) (nibble w 1) (nibble w 0) := by
  fin_cases hd
  exacts [⟨.jp (fieldNnn w), ofNnn_fieldNnn _ w⟩, ⟨.call (fieldNnn w), ofNnn_fieldNnn _ w⟩,
    ⟨.seImm (fieldX w) (fieldKk w), ofXkk_fields _ w⟩, ⟨.sneImm (fieldX w) (fieldKk w), ofXkk_fields _ w⟩,
    ⟨.ldImm (fieldX w) (fieldKk w), ofXkk_fields _ w⟩, ⟨.addImm (fieldX w) (fieldKk w), ofXkk_fields _ w⟩,
    ⟨.ldI (fieldNnn w), ofNnn_fieldNnn _ w⟩, ⟨.jpV0 (fieldNnn w), ofNnn_fieldNnn _ w⟩,
    ⟨.rnd (fieldX w) (fieldKk w), ofXkk_fields _ w⟩, ⟨.drw (fieldX w) (fieldY w) (fieldN w), rfl⟩]

/-- The nine fourth nibbles of 8xy_. -/
theorem exists_encode_of_low8 (x y : Reg) {n : BitVec 4} (hn : n ∈ [0#4, 1#4, 2#4, 3#4, 4#4, 5#4, 6#4, 7#4, 0xE#4]) :
    ∃ i, encode i = ofXyn 8 x y n := by
  fin_cases hn
  exacts [⟨.ldReg x y, rfl⟩, ⟨.orReg x y, rfl⟩, ⟨.andReg x y, rfl⟩, ⟨.xorReg x y, rfl⟩, ⟨.addReg x y, rfl⟩,
    ⟨.subReg x y, rfl⟩, ⟨.shr x y, rfl⟩, ⟨.subnReg x y, rfl⟩, ⟨.shl x y, rfl⟩]

/-- The two low bytes of Ex__. -/
theorem exists_encode_of_lowE (x : Reg) {kk : Byte} (hkk : kk ∈ [0x9E#8, 0xA1#8]) :
    ∃ i, encode i = ofXkk 0xE x kk := by
  fin_cases hkk
  exacts [⟨.skp x, rfl⟩, ⟨.sknp x, rfl⟩]

/-- The nine low bytes of Fx__. -/
theorem exists_encode_of_lowF (x : Reg) {kk : Byte}
    (hkk : kk ∈ [0x07#8, 0x0A#8, 0x15#8, 0x18#8, 0x1E#8, 0x29#8, 0x33#8, 0x55#8, 0x65#8]) :
    ∃ i, encode i = ofXkk 0xF x kk := by
  fin_cases hkk
  exacts [⟨.ldVxDt x, rfl⟩, ⟨.ldVxK x, rfl⟩, ⟨.ldDtVx x, rfl⟩, ⟨.ldStVx x, rfl⟩, ⟨.addI x, rfl⟩, ⟨.ldF x, rfl⟩,
    ⟨.ldB x, rfl⟩, ⟨.storeRegs x, rfl⟩, ⟨.loadRegs x, rfl⟩]

theorem exists_encode_of_legalTop0 {w : Word} (h : legalTop0 w = true) : ∃ i, encode i = w := by
  simp only [legalTop0, Bool.or_eq_true, beq_iff_eq] at h
  obtain (rfl | rfl) | rfl := h
  exacts [⟨.nop, rfl⟩, ⟨.cls, rfl⟩, ⟨.ret, rfl⟩]

theorem mem_free_top (d : BitVec 4) (h0 : d.toNat ≠ 0) (h5 : d.toNat ≠ 5) (h8 : d.toNat ≠ 8) (h9 : d.toNat ≠ 9)
    (hE : d.toNat ≠ 14) (hF : d.toNat ≠ 15) : d ∈ [1#4, 2, 3, 4, 6, 7, 0xA, 0xB, 0xC, 0xD] := by
  revert d
  decide

/-- A word that meets the constraint of its top nibble is some instruction's. -/
theorem exists_encode_of_legalWord {w : Word} (h : legalWord w = true) : ∃ i, encode i = w := by
  have htop : ∀ {d : Nat}, (w.extractLsb' 12 4).toNat = d → nibble w 3 = BitVec.ofNat 4 d := by
    rintro _ rfl
    rw [BitVec.ofNat_toNat, BitVec.setWidth_eq, nibble]
  rw [← ofNibbles_nibble w]
  unfold legalWord at h
  split at h
  next => rw [ofNibbles_nibble]; exact exists_encode_of_legalTop0 h
  next hd =>
    rw [htop hd, show nibble w 0 = 0 from eq_of_beq h]
    exact ⟨.seReg (fieldX w) (fieldY w), rfl⟩
  next hd =>
    rw [htop hd]
    exact exists_encode_of_low8 (fieldX w) (fieldY w) (List.contains_iff_mem.mp h)
  next hd =>
    rw [htop hd, show nibble w 0 = 0 from eq_of_beq h]
    exact ⟨.sneReg (fieldX w) (fieldY w), rfl⟩
  next hd =>
    rw [htop hd, ← ofXkk_fields]
    exact exists_encode_of_lowE _ (List.contains_iff_mem.mp h)
  next hd =>
    rw [htop hd, ← ofXkk_fields]
    exact exists_encode_of_lowF (fieldX w) (List.contains_iff_mem.mp h)
  next h0 h5 h8 h9 hE hF => exact exists_encode_of_free_top w (mem_free_top _ h0 h5 h8 h9 hE hF)

theorem decodeWord_isSome (w : Word) : (decodeWord w).isSome = legalWord w := by
  rw [Bool.eq_iff_iff, Option.isSome_iff_exists]
  simp only [decodeWord_eq_some_iff]
  exact ⟨fun ⟨i, hi⟩ => hi ▸ legalWord_encode i, exists_encode_of_legalWord⟩

theorem decodeWord_eq_none_of_illegal {w : Word} (h : legalWord w = false) : decodeWord w = none := by
  rwa [← decodeWord_isSome, Option.isSome_eq_false_iff, Option.isNone_iff_eq_none] at h

/-- Settles O2: the encoder reaches exactly the words that meet their constraint; the shifts do not read `y`. -/
theorem legalWordsAreThoseOfTheConstraints : Obligations.LegalWordsAreThoseOfTheConstraints :=
  ⟨decodeWord_isSome, fun _ _ _ _ => ⟨rfl, rfl⟩⟩

end Sys2Proof

namespace Sys2Proof.Machine

/-! ### A step by what the fetched word decodes to (30_encoding.md R88, R93) -/

theorem step_eq_exec {s : State} {w : Word} {i : Instr} (hrun : s.Running) (hfetch : s.fetch = some w)
    (hdecode : decodeWord w = some i) : step s = exec i s := by
  have hstatus : s.status = .running := hrun
  simp only [step, hstatus, hfetch, hdecode]

theorem step_of_illegal_word {s : State} {w : Word} (hrun : s.Running) (hfetch : s.fetch = some w)
    (hdecode : decodeWord w = none) : step s = .next (s.takeFault .decodeError (some w) none) := by
  have hstatus : s.status = .running := hrun
  simp only [step, hstatus, hfetch, hdecode]

/-- Settles O5: the fetch succeeds, and the step goes on with the word's instruction. -/
theorem stepRunsTheDecodedInstruction : Obligations.StepRunsTheDecodedInstruction :=
  fun s _ hrun hpc hdecode => step_eq_exec hrun (s.fetch_eq hpc) hdecode

/-- Settles O7: the decoder refuses an illegal word, and a taken fault changes only the status. -/
theorem illegalWordHalts : Obligations.IllegalWordHalts :=
  fun s hrun hpc hillegal =>
    ⟨_, step_of_illegal_word hrun (s.fetch_eq hpc) (decodeWord_eq_none_of_illegal hillegal),
      haltedFrom_takeFault s _ _ _⟩

/-! ### Every meaning answers a next state (60_exceptions.md R201) -/

/-- The forms with a check or a choice end in a next state on every branch, a fault taken being one; the others have one
branch. -/
theorem exec_answers_next (i : Instr) (s : State) : ∃ t, exec i s = .next t := by
  cases i
  case ret | call | drw | skp | sknp | ldVxK | ldB | storeRegs | loadRegs | shr | shl =>
    simp only [exec, execRet, execCall, execDrw, execSkp, execSknp, skipOnKey, execLdVxK, execLdB, execStoreRegs,
      storeAtI, execLoadRegs, execShr, execShl, shiftReg]
    split <;> exact ⟨_, rfl⟩
  all_goals exact ⟨_, rfl⟩

/-- Settles O11: a meaning ends in a next state it wrote, or in the fault it took, which is one too (log 1). -/
theorem everyInstructionAnswersNext : Obligations.EveryInstructionAnswersNext := exec_answers_next

end Sys2Proof.Machine
end

section
/-! PROOF. Where an instruction leaves pc, and the stack of return addresses (40_control_flow.md): O16, O21, O22, O23,
O24, O25. -/

namespace Sys2Proof.Machine

variable {s t : State}

/-! ### The targets of a control transfer (R119) -/

theorem toNat_immAddr (nnn : Addr12) : (immAddr nnn).toNat = nnn.toNat := by
  rw [immAddr, BitVec.toNat_setWidth]
  omega

/-- The target of Bnnn is the exact sum: it fits in 16 bits (R117). -/
theorem toNat_zextByte_add_immAddr (b : Byte) (nnn : Addr12) :
    (zextByte b + immAddr nnn).toNat = b.toNat + nnn.toNat := by
  rw [BitVec.toNat_add, toNat_immAddr, zextByte, BitVec.toNat_setWidth]
  omega

/-- The skips take pc0 + 4 or go on at pc0 + 2 (R119). -/
theorem State.pc_advance_skipIf (s : State) (c : Bool) :
    (s.advance.skipIf c).pc = s.pc + (if c then 4 else 2) := by
  cases c
  · rfl
  · exact BitVec.add_assoc s.pc 2 2

/-- The values an instruction executed in state `s` may leave in pc (R119). -/
inductive PcTarget (s : State) : Word → Prop
  /-- a fault, or Fx0A with no key pressed -/
  | stay : PcTarget s s.pc
  | next : PcTarget s (s.pc + 2)
  | skip : PcTarget s (s.pc + 4)
  | jump (nnn : Addr12) : PcTarget s (immAddr nnn)
  | jumpV0 (nnn : Addr12) : PcTarget s (zextByte (s.getV 0) + immAddr nnn)
  | ret (j : Fin 16) : PcTarget s s.stack[j]

theorem pcTarget_skipIf (s : State) (c : Bool) : PcTarget s (s.advance.skipIf c).pc := by
  rw [s.pc_advance_skipIf]
  cases c
  · exact .next
  · exact .skip

theorem shiftReg_pc {p : ShiftVfResult} {d : ShiftDir} {x : Reg} (h : shiftReg p d x s = .next t) :
    t.pc = s.pc + 2 := by
  unfold shiftReg at h
  split at h <;> cases h <;> rfl

theorem storeAtI_pcTarget {i : Instr} {bs : List Byte} (h : storeAtI i bs s = .next t) : PcTarget s t.pc := by
  rcases storeAtI_cases h with ⟨c, -, rfl⟩ | ⟨-, rfl⟩
  · exact .stay
  · exact .next

theorem skipOnKey_pcTarget {i : Instr} {x : Reg} {b : Bool} (h : skipOnKey i x b s = .next t) : PcTarget s t.pc := by
  rcases skipOnKey_cases h with ⟨-, rfl⟩ | ⟨k, -, rfl⟩
  · exact .stay
  · exact pcTarget_skipIf s _

/-- Every instruction leaves pc at one of the targets of R119. -/
theorem exec_pcTarget {i : Instr} (h : exec i s = .next t) : PcTarget s t.pc := by
  cases i <;> simp only [exec] at h
  case ret =>
    rcases execRet_cases h with ⟨-, rfl⟩ | ⟨_, rfl⟩
    · exact .stay
    · exact .ret ⟨s.sp.val - 1, by omega⟩
  case call nnn =>
    rcases execCall_cases h with ⟨-, rfl⟩ | ⟨_, rfl⟩
    · exact .stay
    · exact .jump nnn
  case drw =>
    rcases execDrw_cases h with ⟨c, -, rfl⟩ | ⟨-, cv, -, rfl⟩
    · exact .stay
    · exact .next
  case loadRegs =>
    rcases execLoadRegs_cases h with ⟨c, -, rfl⟩ | ⟨-, rfl⟩
    · exact .stay
    · exact .next
  case ldVxK =>
    rcases execLdVxK_cases h with ⟨k, -, -, rfl⟩ | ⟨-, rfl⟩
    · exact .next
    · exact .stay
  case skp | sknp => exact skipOnKey_pcTarget h
  case ldB | storeRegs => exact storeAtI_pcTarget h
  case shr | shl => exact shiftReg_pc h ▸ .next
  all_goals cases h
  case jp nnn => exact .jump nnn
  case jpV0 nnn => exact .jumpV0 nnn
  case seImm | sneImm | seReg | sneReg => exact pcTarget_skipIf s _
  all_goals exact .next

/-- From a pc that fetches, no target is past 0x10FE: the largest is that of Bnnn (R117, R119). -/
theorem PcTarget.toNat_le {p : Word} (h : PcTarget s p) (hpc : s.pc.toNat ≤ 4094)
    (hstack : ∀ j : Fin 16, s.stack[j].toNat ≤ 4096) : p.toNat ≤ 0x10FE := by
  cases h with
  | stay => omega
  | next => bv_omega
  | skip => bv_omega
  | jump nnn =>
    rw [toNat_immAddr]
    omega
  | jumpV0 nnn =>
    rw [toNat_zextByte_add_immAddr]
    omega
  | ret j => exact (hstack j).trans (by decide)

/-! ### The stack entries (R112) -/

/-- A stack entry after an instruction is as it was, or the return address that 2nnn pushed. -/
theorem exec_stack_entry {i : Instr} (h : exec i s = .next t) (j : Fin 16) :
    t.stack[j] = s.stack[j] ∨ t.stack[j] = s.pc + 2 := by
  by_cases hcall : ∃ nnn, i = .call nnn
  · obtain ⟨nnn, rfl⟩ := hcall
    rcases execCall_cases h with ⟨-, rfl⟩ | ⟨_, rfl⟩
    · exact .inl rfl
    · by_cases hj : s.sp.val = j.val
      · exact .inr (by simp [hj])
      · exact .inl (by simp [hj])
  · obtain ⟨-, hstack, -⟩ := indexStackAndMemoryWriters i s t h
    rw [hstack fun nnn hi => hcall ⟨nnn, hi⟩]
    exact .inl rfl

/-! ### No step reaches the wrap of pc (R119) -/

theorem exec_keeps_pcBounded {i : Instr} (h : exec i s = .next t) (hpc : s.pc.toNat ≤ 4094) (hs : s.PcBounded) :
    t.PcBounded := by
  obtain ⟨-, hstack⟩ := hs
  refine ⟨(exec_pcTarget h).toNat_le hpc hstack, fun j => ?_⟩
  rcases exec_stack_entry h j with hj | hj
  · exact hj ▸ hstack j
  · rw [hj]
    bv_omega

/-- A fetched word was at a pc of at most 4094 (20_memory.md R57). -/
theorem State.pc_le_of_fetch {w : Word} (h : s.fetch = some w) : s.pc.toNat ≤ 4094 := by
  by_contra hpc
  rw [s.fetch_eq_none (by omega)] at h
  cases h

/-- Settles O16: a fault keeps pc and the stack, and an instruction runs from a pc of at most 4094. -/
theorem stepKeepsPcBounded : Obligations.StepKeepsPcBounded := by
  intro s t hs h
  obtain ⟨-, ⟨-, rfl⟩ | ⟨w, -, -, rfl⟩ | ⟨w, i, hfetch, -, hi⟩⟩ := step_cases h
  · exact hs
  · exact hs
  · exact exec_keeps_pcBounded hi (State.pc_le_of_fetch hfetch) hs

/-! ### Return and call (R110, R112, R120) -/

/-- 00EE with sp > 0: the popped entry is the new pc, and it is kept. -/
theorem execRet_pops (hsp : s.sp.val ≠ 0) (h : exec .ret s = .next t) :
    s.stack[s.sp.val - 1]? = some t.pc ∧ t.sp.val + 1 = s.sp.val ∧ OnlyChanges [.pc, .sp] [] s t := by
  rcases execRet_cases h with ⟨hsp', -⟩ | ⟨hpos, rfl⟩
  · exact absurd hsp' hsp
  · exact ⟨Vector.getElem?_eq_getElem _, Nat.sub_add_cancel hpos, by simp [onlyChanges_iff, State.getV]⟩

/-- 2nnn with sp < 16: the address of the next instruction is at the old sp, and pc is the target. -/
theorem execCall_pushes {nnn : Addr12} (hsp : s.sp.val ≠ 16) (h : exec (.call nnn) s = .next t) :
    t.stack[s.sp.val]? = some (s.pc + 2) ∧ t.sp.val = s.sp.val + 1 ∧ t.pc = immAddr nnn ∧
      OnlyChanges [.pc, .sp, .stack] [] s t := by
  rcases execCall_cases h with ⟨hsp', -⟩ | ⟨hlt, rfl⟩
  · exact absurd hsp' hsp
  · exact ⟨by simp [hlt], rfl, rfl, by simp [onlyChanges_iff, State.getV]⟩

theorem execRet_underflows (hsp : s.sp.val = 0) (h : exec .ret s = .next t) :
    HaltedFrom s .stackUnderflow (some (encode .ret)) none t := by
  rcases execRet_cases h with ⟨-, rfl⟩ | ⟨hpos, -⟩
  · exact haltedFrom_takeFault s _ _ _
  · omega

theorem execCall_overflows {nnn : Addr12} (hsp : s.sp.val = 16) (h : exec (.call nnn) s = .next t) :
    HaltedFrom s .stackOverflow (some (encode (.call nnn))) none t := by
  rcases execCall_cases h with ⟨-, rfl⟩ | ⟨hlt, -⟩
  · exact haltedFrom_takeFault s _ _ _
  · omega

/-- Settles O21: the pop of R110, or its fault. -/
theorem returnPopsOrUnderflows : Obligations.ReturnPopsOrUnderflows := by
  intro s
  obtain ⟨t, ht⟩ := exec_answers_next .ret s
  have hword : encode .ret = 0x00EE := by decide
  exact ⟨fun hsp => ⟨t, ht, execRet_pops hsp ht⟩, fun hsp => ⟨t, ht, hword ▸ execRet_underflows hsp ht⟩⟩

/-- Settles O22: the push of R112, or its fault; the other entries are kept by every instruction. -/
theorem callPushesOrOverflows : Obligations.CallPushesOrOverflows := by
  intro s nnn
  obtain ⟨t, ht⟩ := exec_answers_next (.call nnn) s
  refine ⟨fun hsp => ?_, fun hsp => ⟨t, ht, execCall_overflows hsp ht⟩⟩
  obtain ⟨hentry, hnewsp, hpc, hframe⟩ := execCall_pushes hsp ht
  exact ⟨t, ht, hentry, fun j => exec_keeps_stack_entry ht, hnewsp, hpc ▸ toNat_immAddr nnn, hframe⟩

/-- Settles O25: the return pops the entry that the call pushed. -/
theorem callThenReturnComesBack : Obligations.CallThenReturnComesBack := by
  intro s t u nnn hsp hcall husp hustack
  obtain ⟨hpushed, htsp, -, -⟩ := execCall_pushes hsp hcall
  have husp : u.sp.val = s.sp.val + 1 := by rw [husp, htsp]
  obtain ⟨v, hret⟩ := exec_answers_next .ret u
  obtain ⟨hpopped, hvsp, -⟩ := execRet_pops (by omega) hret
  have hpc : some v.pc = some (s.pc + 2) := by
    calc some v.pc
        _ = u.stack[u.sp.val - 1]? := hpopped.symm
        _ = u.stack[s.sp.val]? := by rw [husp, Nat.add_sub_cancel]
        _ = some (s.pc + 2) := hustack.trans hpushed
  exact ⟨v, hret, Option.some.inj hpc, Fin.ext (by omega)⟩

/-! ### Jumps and skips (R111, R113 to R118) -/

/-- Settles O23: each writes pc and nothing else. -/
theorem jumpsAndNoOperation : Obligations.JumpsAndNoOperation := by
  intro s nnn
  refine ⟨⟨_, rfl, toNat_immAddr nnn, ?_⟩, ⟨_, rfl, toNat_zextByte_add_immAddr _ nnn, ?_⟩, ⟨_, rfl, rfl, ?_⟩⟩
  all_goals exact onlyChanges_setPc s _ (by simp)

/-- A meaning that skips on the condition `p`, as the Boolean `c` computes it. -/
theorem skipIf_spec (s : State) {c : Bool} {p : Prop} [Decidable p] (hc : c = true ↔ p) :
    (s.advance.skipIf c).pc = s.pc + (if p then 4 else 2) ∧ OnlyChanges [.pc] [] s (s.advance.skipIf c) := by
  refine ⟨?_, onlyChanges_setPc s _ (by simp)⟩
  simp only [s.pc_advance_skipIf, hc]

/-- Settles O24: each is a skip on its condition; 4xkk and 9xy0 skip on the negated one. -/
theorem compareAndSkip : Obligations.CompareAndSkip := by
  intro s x y kk
  refine ⟨⟨_, rfl, skipIf_spec s beq_iff_eq⟩, ⟨_, rfl, ?_⟩, ⟨_, rfl, skipIf_spec s beq_iff_eq⟩, ⟨_, rfl, ?_⟩⟩
  all_goals
    rw [← ite_not]
    exact skipIf_spec s bne_iff_ne

end Sys2Proof.Machine
end

section
/-! PROOF. The register arithmetic (41_arithmetic.md): O26, O27, O28, O29, O30, O31, O32. -/

namespace Sys2Proof.Machine

variable {s t : State} {x : Reg}

/-! ### The flag and result values as numbers (R136 to R141) -/

theorem toNat_flagByte (c : Bool) : (flagByte c).toNat = c.toNat := by
  cases c <;> rfl

theorem toNat_carryFlag (a b : Byte) : (carryFlag a b).toNat = if a.toNat + b.toNat > 255 then 1 else 0 := by
  rw [carryFlag, toNat_flagByte, Bool.toNat, Bool.cond_decide]

theorem toNat_notBorrowFlag (a b : Byte) : (notBorrowFlag a b).toNat = if a.toNat < b.toNat then 0 else 1 := by
  unfold notBorrowFlag
  split <;> rfl

theorem toNat_shifted_right (a : Byte) : (shifted .right a).toNat = a.toNat / 2 := by
  rw [shifted, BitVec.toNat_ushiftRight, Nat.shiftRight_eq_div_pow, pow_one]

theorem toNat_shifted_left (a : Byte) : (shifted .left a).toNat = a.toNat * 2 % 256 := by
  rw [shifted, BitVec.toNat_shiftLeft, Nat.shiftLeft_eq]

theorem toNat_shiftedOut_right (a : Byte) : (shiftedOut .right a).toNat = a.toNat % 2 := by
  rw [shiftedOut, toNat_flagByte, BitVec.getLsbD, Nat.toNat_testBit]
  omega

theorem toNat_shiftedOut_left (a : Byte) : (shiftedOut .left a).toNat = a.toNat / 128 := by
  rw [shiftedOut, toNat_flagByte, BitVec.getLsbD, Nat.toNat_testBit]
  omega

/-- The flag is written first and the shift then takes it: to the right nothing is left of it (R141). -/
theorem toNat_shifted_shiftedOut_right (a : Byte) : (shifted .right (shiftedOut .right a)).toNat = 0 := by
  rw [toNat_shifted_right, toNat_shiftedOut_right]
  omega

/-- To the left the flag is doubled, and 2 fits in the byte (R141). -/
theorem toNat_shifted_shiftedOut_left (a : Byte) :
    (shifted .left (shiftedOut .left a)).toNat = a.toNat / 128 * 2 := by
  rw [toNat_shifted_left, toNat_shiftedOut_left]
  omega

/-! ### The shapes of the meanings: one write, a result then its flag, a shift -/

/-- A meaning that advances pc and writes `b` to V[x]. -/
theorem advance_setV_spec (s : State) (x : Reg) (b : Byte) :
    (s.advance.setV x b).getV x = b ∧ (s.advance.setV x b).pc = s.pc + 2 ∧
      OnlyChanges [.pc] [x] s (s.advance.setV x b) :=
  ⟨State.getV_setV_self _ x b, rfl, onlyChanges_advance_setV s b (by simp) (by simp)⟩

/-- The flag is written last, so it stands in VF whatever x is (R142). -/
theorem arithThenFlag_spec {a f : Byte} (h : arithThenFlag x a f s = .next t) :
    (x ≠ VF → t.getV x = a) ∧ t.getV VF = f ∧ t.pc = s.pc + 2 := by
  cases h
  refine ⟨fun hx => ?_, State.getV_setV_self _ VF f, rfl⟩
  rw [State.getV_setV_of_ne _ f hx, State.getV_setV_self]

/-- A shift leaves its result in V[x] and the bit shifted out in VF; on VF itself it makes the one write of R141. -/
theorem shiftReg_getV {p : ShiftVfResult} {d : ShiftDir} (h : shiftReg p d x s = .next t) :
    (x ≠ VF → t.getV x = shifted d (s.getV x) ∧ t.getV VF = shiftedOut d (s.getV x)) ∧
      (x = VF → t.getV VF = shiftVF p d (s.getV VF)) := by
  unfold shiftReg at h
  split at h <;> cases h
  · next hx =>
    subst hx
    exact ⟨(absurd rfl ·), fun _ => State.getV_setV_self _ VF _⟩
  · next hx =>
    refine ⟨fun _ => ⟨State.getV_setV_self _ x _, ?_⟩, (absurd · hx)⟩
    rw [State.getV_setV_of_ne _ _ (Ne.symm hx), State.getV_setV_self]

/-! ### The shifts (R138, R140, R141) -/

/-- Settles O30: the two writes of a shift, and for x = F the three values of the parameter in turn. -/
theorem shiftsLeaveResultAndBitShiftedOut : Obligations.ShiftsLeaveResultAndBitShiftedOut := by
  intro s x y
  constructor
  · obtain ⟨t, ht⟩ := exec_answers_next (.shr x y) s
    obtain ⟨hother, hvf⟩ := shiftReg_getV ht
    refine ⟨t, ht, shiftReg_pc ht, shiftReg_onlyChanges ht, fun hx => ?_, fun hx => ?_⟩
    · obtain ⟨hres, hflag⟩ := hother hx
      rw [hres, hflag]
      exact ⟨toNat_shifted_right _, toNat_shiftedOut_right _⟩
    · rw [hvf hx]
      cases Config.shiftVfResult with
      | flag => exact toNat_shiftedOut_right _
      | seqResult => exact toNat_shifted_shiftedOut_right _
      | capturedResult => exact toNat_shifted_right _
  · obtain ⟨t, ht⟩ := exec_answers_next (.shl x y) s
    obtain ⟨hother, hvf⟩ := shiftReg_getV ht
    refine ⟨t, ht, shiftReg_pc ht, shiftReg_onlyChanges ht, fun hx => ?_, fun hx => ?_⟩
    · obtain ⟨hres, hflag⟩ := hother hx
      rw [hres, hflag]
      exact ⟨toNat_shifted_left _, toNat_shiftedOut_left _⟩
    · rw [hvf hx]
      cases Config.shiftVfResult with
      | flag => exact toNat_shiftedOut_left _
      | seqResult => exact toNat_shifted_shiftedOut_left _
      | capturedResult => exact toNat_shifted_left _

/-! ### The random byte (R145, R146) -/

theorem getV_rndWith (r : Byte) (x : Reg) (kk : Byte) (s : State) : (rndWith r x kk s).getV x = r &&& kk :=
  State.getV_setV_self _ x _

/-- A draw for `kk` is in [0, kk]. -/
theorem State.toNat_draw_le (s : State) (kk : Byte) : (s.draw kk).toNat ≤ kk.toNat := by
  rw [State.draw, BitVec.toNat_ofNat]
  omega

/-- What AND with `kk` leaves is a submask of `kk`. -/
theorem and_and_not_mask (r kk : Byte) : r &&& kk &&& ~~~kk = 0 :=
  calc r &&& kk &&& ~~~kk
    _ = r &&& (kk &&& ~~~kk) := BitVec.and_assoc r kk _
    _ = r &&& 0#8 := congrArg (r &&& ·) (BitVec.and_not_self kk)
    _ = 0 := BitVec.and_zero

/-- A submask of `kk` is kept by AND with `kk`. -/
theorem and_eq_self_of_submask {v kk : Byte} (h : v &&& ~~~kk = 0) : v &&& kk = v :=
  calc v &&& kk
    _ = v &&& kk ||| v &&& ~~~kk := by rw [h]; exact BitVec.or_zero.symm
    _ = v &&& (kk ||| ~~~kk) := BitVec.and_or_distrib_left.symm
    _ = v := by rw [BitVec.or_not_self, BitVec.and_allOnes]

/-- Settles O32: a submask is its own legal draw, since AND with kk keeps it and does not exceed kk. -/
theorem randomValuesAreTheSubmasks : Obligations.RandomValuesAreTheSubmasks := by
  intro s x kk v
  simp only [getV_rndWith]
  constructor
  · rintro ⟨r, -, rfl⟩
    exact and_and_not_mask r kk
  · intro hv
    have hself := and_eq_self_of_submask hv
    refine ⟨v, ?_, hself⟩
    calc v.toNat
        _ = (v &&& kk).toNat := by rw [hself]
        _ ≤ kk.toNat := by rw [BitVec.toNat_and]; exact Nat.and_le_right

/-- Settles O31: the draw of the state is the byte asked for. -/
theorem randomWritesADrawAndMask : Obligations.RandomWritesADrawAndMask := fun s x kk =>
  ⟨_, rfl, ⟨s.draw kk, s.toNat_draw_le kk, getV_rndWith _ x kk s⟩, rfl, exec_onlyChanges (i := .rnd x kk) rfl⟩

/-! ### One register written, no flag (R130 to R135) -/

/-- Settles O26: each is one write of V[x]; 7xkk is the sum of two bytes. -/
theorem loadAddAndCopyRegister : Obligations.LoadAddAndCopyRegister := by
  intro s x y kk
  refine ⟨⟨_, rfl, advance_setV_spec s x kk⟩, ⟨_, rfl, ?_⟩, ⟨_, rfl, advance_setV_spec s x (s.getV y)⟩⟩
  obtain ⟨hval, hpc, hframe⟩ := advance_setV_spec s x (s.getV x + kk)
  exact ⟨by rw [hval, BitVec.toNat_add], hpc, hframe⟩

/-- Settles O27: each is one write of V[x], and the library says its bits. -/
theorem logicIsBitwise : Obligations.LogicIsBitwise := by
  intro s x y
  refine ⟨?_, ?_, ?_⟩
  · obtain ⟨hval, hpc, hframe⟩ := advance_setV_spec s x (s.getV x ||| s.getV y)
    exact ⟨_, rfl, hpc, hframe, fun k _ => by rw [hval, BitVec.getLsbD_or]⟩
  · obtain ⟨hval, hpc, hframe⟩ := advance_setV_spec s x (s.getV x &&& s.getV y)
    exact ⟨_, rfl, hpc, hframe, fun k _ => by rw [hval, BitVec.getLsbD_and]⟩
  · obtain ⟨hval, hpc, hframe⟩ := advance_setV_spec s x (s.getV x ^^^ s.getV y)
    exact ⟨_, rfl, hpc, hframe, fun k _ => by rw [hval, BitVec.getLsbD_xor]⟩

/-! ### Sum and difference with their flags (R136, R137, R139, R142) -/

/-- Settles O28: the carry is written last. -/
theorem addLeavesSumAndCarry : Obligations.AddLeavesSumAndCarry := by
  intro s x y
  obtain ⟨t, ht⟩ := exec_answers_next (.addReg x y) s
  obtain ⟨hres, hflag, hpc⟩ := arithThenFlag_spec ht
  refine ⟨t, ht, fun hx => ?_, hflag ▸ toNat_carryFlag _ _, hpc, arithThenFlag_onlyChanges ht⟩
  rw [hres hx, BitVec.toNat_add]

/-- The difference `a - b` mod 256 in V[x] and NOT borrow in VF: 8xy5, and 8xy7 with the operands exchanged. -/
theorem arithThenFlag_sub_spec {a b : Byte} (h : arithThenFlag x (a - b) (notBorrowFlag a b) s = .next t) :
    (x ≠ VF → (t.getV x).toNat = (256 + a.toNat - b.toNat) % 256) ∧
      (t.getV VF).toNat = (if a.toNat < b.toNat then 0 else 1) ∧ t.pc = s.pc + 2 ∧ OnlyChanges [.pc] [x, VF] s t := by
  obtain ⟨hres, hflag, hpc⟩ := arithThenFlag_spec h
  refine ⟨fun hx => ?_, hflag ▸ toNat_notBorrowFlag a b, hpc, arithThenFlag_onlyChanges h⟩
  rw [hres hx, BitVec.toNat_sub]
  omega

/-- Settles O29: both are the subtraction of one shape. -/
theorem subtractLeavesDifferenceAndNotBorrow : Obligations.SubtractLeavesDifferenceAndNotBorrow := fun _ _ _ =>
  ⟨⟨_, rfl, arithThenFlag_sub_spec rfl⟩, ⟨_, rfl, arithThenFlag_sub_spec rfl⟩⟩

end Sys2Proof.Machine
end

section
/-! PROOF. The index register and the memory instructions that go through it (42_memory_index.md): O33, O34, O35, O36,
O37. -/

namespace Sys2Proof.Machine

variable {s : State} {x : Reg}

/-! ### The store of Fx33 and Fx55, and its address faults (R154, R155) -/

section Store

variable {i : Instr} {bs : List Byte}

/-- A store through I whose addresses pass their checks: the frame, the bytes around it, and the bytes stored. -/
theorem storeAtI_spec (hstore : s.CanStore bs.length) :
    ∃ t, storeAtI i bs s = .next t ∧ t.pc = s.pc + 2 ∧ OnlyChanges [.pc, .memory] [] s t ∧
      (∀ a, a < s.ea 0 ∨ s.ea 0 + bs.length ≤ a → t.mem.read a = s.mem.read a) ∧
      (s.mem.wf = true → ∀ k (hk : k < bs.length), t.mem.read (s.ea k) = bs[k]) := by
  have hnext := storeAtI_of_canStore (i := i) hstore
  refine ⟨_, hnext, rfl, ?_, fun a ha => read_outside_of_storeAtI hstore hnext ha,
    fun hwf k hk => read_ea_of_storeAtI hwf hstore hnext hk⟩
  simp [onlyChanges_iff, State.getV]

/-- The first check that fails halts the machine with its reason and its address (60_exceptions.md R201, R205). -/
theorem storeAtI_of_fault {c : FaultCause} (hcheck : firstFault writeFault (s.eas bs.length) = some c) :
    ∃ t, storeAtI i bs s = .next t ∧ HaltedFrom s c.reason (some (encode i)) c.info t := by
  refine ⟨_, ?_, haltedFrom_takeFault s _ _ _⟩
  simp only [storeAtI, hcheck, raise]

theorem storeAtI_of_font (hlen : 1 ≤ bs.length) (hfont : s.index.toNat ≤ 79) :
    ∃ t, storeAtI i bs s = .next t ∧
      HaltedFrom s .fontWrite (some (encode i)) (some (.address s.index.toNat)) t :=
  storeAtI_of_fault (c := ⟨.fontWrite, some (.address s.index.toNat)⟩)
    (by rw [firstFault_write s hlen, if_pos hfont])

theorem storeAtI_of_past_end (hlen : 1 ≤ bs.length) (hfont : 80 ≤ s.index.toNat)
    (hend : s.index.toNat + bs.length > 4096) :
    ∃ t, storeAtI i bs s = .next t ∧
      HaltedFrom s .memoryOutOfBounds (some (encode i)) (some (.address (max s.index.toNat 4096))) t :=
  storeAtI_of_fault (c := ⟨.memoryOutOfBounds, some (.address (max s.index.toNat 4096))⟩)
    (by rw [firstFault_write s hlen, if_neg (by omega), if_pos hend])

end Store

/-- Settles O35: the store through I, of the three digits of V[x]; the hundreds digit of a byte is below 10. -/
theorem bcdStoresThreeDigits : Obligations.BcdStoresThreeDigits := by
  intro s x
  have hlen : (bcdDigits (s.getV x)).length = 3 := rfl
  refine ⟨fun hfont hend => ?_, storeAtI_of_font (by omega), fun hfont hend =>
    storeAtI_of_past_end (by omega) hfont (by omega)⟩
  obtain ⟨t, hnext, hpc, hframe, houtside, hstored⟩ :=
    storeAtI_spec (i := .ldB x) (s.canStore_bcdDigits (x := x) hfont hend)
  refine ⟨t, hnext, hpc, hframe, houtside, fun hwf => ?_⟩
  have hdigit (k : Nat) (hk : k < (bcdDigits (s.getV x)).length) :
      (t.mem.read (s.ea k)).toNat = (s.getV x).toNat / 10 ^ (2 - k) % 10 := by
    rw [hstored hwf k hk, toNat_getElem_bcdDigits _ k hk]
  have hhundreds : (s.getV x).toNat / 100 < 10 := by omega
  refine ⟨(hdigit 0 (by omega)).trans (Nat.mod_eq_of_lt hhundreds), hdigit 1 (by omega), ?_⟩
  rw [hdigit 2 (by omega), Nat.sub_self, pow_zero, Nat.div_one]

/-- Settles O36: the store through I, of the x + 1 registers up to V[x]. -/
theorem storeRegistersFromIndexOn : Obligations.StoreRegistersFromIndexOn := by
  intro s x
  have hlen := s.length_regsUpTo x
  refine ⟨fun hfont hend => ?_, storeAtI_of_font (by omega), fun hfont hend =>
    storeAtI_of_past_end (by omega) hfont (by omega)⟩
  obtain ⟨t, hnext, hpc, hframe, houtside, hstored⟩ :=
    storeAtI_spec (i := .storeRegs x) (s.canStore_regsUpTo hfont hend)
  refine ⟨t, hnext, hpc, hframe, hlen ▸ houtside, fun hwf r hr => ?_⟩
  have hr' : r.val < (s.regsUpTo x).length := hlen ▸ Nat.lt_succ_of_le hr
  rw [hstored hwf r.val hr', s.getElem_regsUpTo x r hr']

/-! ### The load of Fx65 and its address fault (R156) -/

theorem execLoadRegs_of_past_end (hend : s.index.toNat + x.val > 4095) :
    ∃ t, execLoadRegs x s = .next t ∧
      HaltedFrom s .memoryOutOfBounds (some (encode (.loadRegs x))) (some (.address (max s.index.toNat 4096))) t := by
  refine ⟨_, ?_, haltedFrom_takeFault s _ _ _⟩
  have hcheck := firstFault_read s (x.val + 1)
  rw [if_pos (by omega)] at hcheck
  simp only [execLoadRegs, hcheck, raise]

/-- Settles O37: inside the address space the block of registers up to V[x] is written with the bytes from I on. -/
theorem loadRegistersFromIndexOn : Obligations.LoadRegistersFromIndexOn := by
  refine fun s x => ⟨fun hend => ⟨_, execLoadRegs_of_inBounds hend, rfl, ?_, fun r hr => ?_⟩, execLoadRegs_of_past_end⟩
  · exact onlyChanges_pc_v s _ fun r => getElem_setVFrom_of_not_mem s.v (by simp)
  · exact getElem_setVFrom_readBytes s.v s.mem (s.ea 0) hr

/-! ### The index register (R150 to R153) -/

/-- Five times a byte fits in a word, so Fx29 does not wrap (R153). -/
theorem toNat_zextByte_mul_glyphBytes (b : Byte) :
    (zextByte b * BitVec.ofNat 16 Config.glyphBytes).toNat = b.toNat * 5 := by
  rw [BitVec.toNat_mul, zextByte, BitVec.toNat_setWidth, BitVec.toNat_ofNat, Config.glyphBytes]
  omega

theorem toNat_add_zextByte (w : Word) (b : Byte) : (w + zextByte b).toNat = (w.toNat + b.toNat) % 65536 := by
  rw [BitVec.toNat_add, zextByte, BitVec.toNat_setWidth]
  omega

/-- Settles O33: each writes I once; the immediate and the product are exact. -/
theorem loadIndexAndGlyphAddress : Obligations.LoadIndexAndGlyphAddress := fun _ x nnn =>
  ⟨⟨_, rfl, toNat_immAddr nnn, rfl, exec_onlyChanges (i := .ldI nnn) rfl⟩,
    ⟨_, rfl, toNat_zextByte_mul_glyphBytes _, rfl, exec_onlyChanges (i := .ldF x) rfl⟩⟩

/-- Settles O34: the flag is written from the exact sum, I from the sum mod 65536. -/
theorem addToIndexAndItsFlag : Obligations.AddToIndexAndItsFlag := fun s x =>
  ⟨_, rfl, toNat_add_zextByte s.index (s.getV x), State.getV_setV_self s.advance VF _, rfl,
    addIndex_onlyChanges _ x s⟩

end Sys2Proof.Machine
end

section
/-! PROOF. Clearing the screen and drawing sprites (43_graphics.md): O40, O41, O42. -/

namespace Sys2Proof.Machine

variable {s t u : State} {x y : Reg} {n : BitVec 4}

/-! ### Pixels, canvases and flags -/

theorem pixel_clearFb (row : Fin 32) (col : Fin 64) : pixel clearFb row col = false := by simp [pixel, clearFb]

/-- Framebuffers with the same pixels are the same. -/
theorem pixel_ext {fb fb' : Framebuffer} (h : ∀ row col, pixel fb row col = pixel fb' row col) : fb = fb' :=
  Vector.ext fun r hr => Vector.ext fun c hc => h ⟨r, hr⟩ ⟨c, hc⟩

/-- Inverting the same pixels twice restores them, whatever the collision flags are (R174). -/
theorem Drawn.twice_restores {cov : Fin 32 → Fin 64 → Prop} {a b c : Framebuffer} {p q p' q' : Bool}
    (h : Drawn cov (a, p) (b, q)) (g : Drawn cov (b, p') (c, q')) : c = a := by
  refine pixel_ext fun row col => ?_
  by_cases hcov : cov row col
  · calc pixel c row col
      _ = !pixel b row col := g.inverted row col hcov
      _ = !!pixel a row col := congrArg _ (h.inverted row col hcov)
      _ = pixel a row col := Bool.not_not _
  · exact (g.kept row col hcov).trans (h.kept row col hcov)

theorem flagByte_eq_one_iff {c : Bool} : flagByte c = 1 ↔ c = true := by cases c <;> decide

theorem flagByte_eq_zero_iff {c : Bool} : flagByte c = 0 ↔ c = false := by cases c <;> decide

/-! ### The pixels a sprite covers (R171, R172) -/

/-- The sprite bytes read from I on, drawn at V[x], V[y], cover the pixels of `SpriteCovers`. -/
theorem rowsCover_readBytes_iff (s : State) (x y : Reg) (n : BitVec 4) (row : Fin 32) (col : Fin 64) :
    RowsCover (s.getV x).toNat (s.getV y).toNat (s.mem.readBytes (s.ea 0) n.toNat) row col ↔
      SpriteCovers s x y n row col := by
  constructor
  · rintro ⟨r, b, hread, hrow, c, hc, hbit, hcol⟩
    obtain ⟨hr, hbyte⟩ := List.getElem?_eq_some_iff.mp hread
    rw [Memory.getElem_readBytes] at hbyte
    rw [Memory.length_readBytes] at hr
    subst hbyte
    exact ⟨r, c, hr, hc, congrArg Fin.val hrow, congrArg Fin.val hcol, hbit⟩
  · rintro ⟨r, c, hr, hc, hrow, hcol, hbit⟩
    have hr' : r < (s.mem.readBytes (s.ea 0) n.toNat).length := by rwa [Memory.length_readBytes]
    refine ⟨r, _, List.getElem?_eq_getElem hr', Fin.ext hrow, c, hc, ?_, Fin.ext hcol⟩
    rw [Memory.getElem_readBytes]
    exact hbit

/-- The covered pixels depend on the memory, I, V[x] and V[y] only. -/
theorem spriteCovers_congr (hmem : u.mem = s.mem) (hindex : u.index = s.index) (hx : u.getV x = s.getV x)
    (hy : u.getV y = s.getV y) : SpriteCovers u x y n = SpriteCovers s x y n := by
  funext row col
  rw [SpriteCovers, SpriteCovers, hmem, hindex, hx, hy]

/-! ### Dxyn inside the address space and past its end (R171) -/

/-- Every sprite byte lies in memory; an empty sprite has none. -/
def State.SpriteFits (s : State) (n : BitVec 4) : Prop := s.index.toNat + n.toNat ≤ 4096 ∨ n.toNat = 0

/-- What a draw that does not fault answers: VF is the collision flag of the drawing, and only pc, the framebuffer and
VF change. -/
structure DrawsTo (s : State) (x y : Reg) (n : BitVec 4) (t : State) (hit : Bool) : Prop where
  drawn : Drawn (SpriteCovers s x y n) (s.fb, false) (t.fb, hit)
  flag : t.getV VF = flagByte hit
  pc : t.pc = s.pc + 2
  mem : t.mem = s.mem
  frame : OnlyChanges [.pc, .fb] [VF] s t

theorem DrawsTo.hit_iff {hit : Bool} (h : DrawsTo s x y n t hit) :
    hit = true ↔ ∃ row col, SpriteCovers s x y n row col ∧ pixel s.fb row col = true := by
  simpa using h.drawn.hit

theorem DrawsTo.flag_eq_one_iff {hit : Bool} (h : DrawsTo s x y n t hit) :
    t.getV VF = 1 ↔ ∃ row col, SpriteCovers s x y n row col ∧ pixel s.fb row col = true := by
  rw [h.flag, flagByte_eq_one_iff, h.hit_iff]

theorem DrawsTo.flag_eq_zero {hit : Bool} (h : DrawsTo s x y n t hit)
    (hnone : ¬∃ row col, SpriteCovers s x y n row col ∧ pixel s.fb row col = true) : t.getV VF = 0 := by
  rw [h.flag, flagByte_eq_zero_iff, ← Bool.not_eq_true, h.hit_iff]
  exact hnone

theorem exec_drw_of_fits (hfits : s.SpriteFits n) (h : exec (.drw x y n) s = .next t) :
    ∃ hit, DrawsTo s x y n t hit := by
  rcases execDrw_cases h with ⟨c, hcheck, -⟩ | ⟨-, cv, hcv, rfl⟩
  · rw [firstFault_read, if_neg (by unfold State.SpriteFits at hfits; omega)] at hcheck
    cases hcheck
  · refine ⟨cv.2, ?_, State.getV_setV_self _ VF _, rfl, rfl, ?_⟩
    · have hrows : (s.mem.readBytes (s.ea 0) n.toNat).length ≤ 32 := by rw [Memory.length_readBytes]; omega
      rw [hcv]
      exact (drawn_drawRows _ _ _ (s.fb, false) hrows).congr (rowsCover_readBytes_iff s x y n)
    · refine OnlyChanges.trans ?_ (onlyChanges_setV _ _ (by simp))
      simp [onlyChanges_iff, State.getV]

theorem exec_drw_of_past_end (hend : s.index.toNat + n.toNat > 4096) (hn : 1 ≤ n.toNat)
    (h : exec (.drw x y n) s = .next t) :
    HaltedFrom s .memoryOutOfBounds (some (encode (.drw x y n))) (some (.address (max s.index.toNat 4096))) t := by
  have hcheck := firstFault_read s n.toNat
  rw [if_pos ⟨hn, hend⟩] at hcheck
  rcases execDrw_cases h with ⟨c, hc, rfl⟩ | ⟨hnone, -⟩
  · cases hcheck.symm.trans hc
    exact haltedFrom_takeFault s _ _ _
  · cases hcheck.symm.trans hnone

/-! ### The statements -/

/-- Settles O41: the rows and columns of a sprite are distinct pixels, each toggled once under a set bit. -/
theorem drawInvertsTheCoveredPixels : Obligations.DrawInvertsTheCoveredPixels := by
  intro s x y n
  obtain ⟨t, ht⟩ := exec_answers_next (.drw x y n) s
  refine ⟨fun hfits => ?_, fun hend hn => ⟨t, ht, exec_drw_of_past_end hend hn ht⟩⟩
  obtain ⟨hit, hdraw⟩ := exec_drw_of_fits hfits ht
  exact ⟨t, ht, hdraw.pc, hdraw.frame, hdraw.drawn.inverted, hdraw.drawn.kept, hdraw.flag_eq_one_iff.mpr,
    hdraw.flag_eq_zero⟩

/-- Settles O42: both draws invert the same pixels, and the second starts from the framebuffer the first left. -/
theorem drawingTwiceRestores : Obligations.DrawingTwiceRestores := by
  intro s t u x y n hfits ht hfb hmem hindex hx hy
  obtain ⟨hit, hfirst⟩ := exec_drw_of_fits hfits ht
  have hfits' : u.SpriteFits n := by rwa [State.SpriteFits, hindex]
  obtain ⟨v, hv⟩ := exec_answers_next (.drw x y n) u
  obtain ⟨hit', hsecond⟩ := exec_drw_of_fits hfits' hv
  have hcov : SpriteCovers u x y n = SpriteCovers s x y n :=
    spriteCovers_congr (hmem.trans hfirst.mem) hindex hx hy
  have hflag := hsecond.flag_eq_one_iff
  have hdrawn := hsecond.drawn
  rw [hcov, hfb] at hflag hdrawn
  exact ⟨v, hv, hfirst.drawn.twice_restores hdrawn, hflag⟩

/-- Settles O40: the framebuffer is replaced by the cleared one. -/
theorem clearScreen : Obligations.ClearScreen := fun _ =>
  ⟨_, rfl, pixel_clearFb, rfl, exec_onlyChanges (i := .cls) rfl⟩

end Sys2Proof.Machine
end

section
/-! PROOF. The timers and the keypad (44_timer_input.md): O43, O44, O45. -/

namespace Sys2Proof.Machine

variable {s t : State} {x : Reg} {k : Fin 16}

/-! ### The key wait (R185) -/

theorem toNat_keyByte (k : Fin 16) : (keyByte k).toNat = k.val := by
  rw [keyByte, BitVec.toNat_ofNat]
  omega

/-- Pressed with no lower key pressed, `k` is the key captured: two such keys are both the first key found. -/
theorem exec_ldVxK_of_lowest (hk : s.keys[k] = true) (hlow : ∀ j : Fin 16, j < k → s.keys[j] = false)
    (h : exec (.ldVxK x) s = .next t) : t = s.advance.setV x (keyByte k) := by
  have hfirst : firstKey s.keys = some k := firstKey_eq_some.mpr ⟨hk, hlow⟩
  rcases execLdVxK_cases h with ⟨k', hk', hlow', rfl⟩ | ⟨hnone, -⟩
  · cases hfirst.symm.trans (firstKey_eq_some.mpr ⟨hk', hlow'⟩)
    rfl
  · cases hfirst.symm.trans (firstKey_eq_none.mpr hnone)

/-- With no key pressed the state is as it was: the fetch advance is taken back. -/
theorem exec_ldVxK_of_none (hnone : ∀ k : Fin 16, s.keys[k] = false) (h : exec (.ldVxK x) s = .next t) : t = s := by
  rcases execLdVxK_cases h with ⟨k, hk, -, -⟩ | ⟨-, hsame⟩
  · cases hk.symm.trans (hnone k)
  · exact hsame

/-- Settles O45: the captured key is written to V[x] as a byte, or the state is kept. -/
theorem keyWaitCapturesLowestOrRepeats : Obligations.KeyWaitCapturesLowestOrRepeats := by
  intro s x
  obtain ⟨t, ht⟩ := exec_answers_next (.ldVxK x) s
  refine ⟨fun k hk hlow => ?_, fun hnone => exec_ldVxK_of_none hnone ht ▸ ht⟩
  obtain rfl := exec_ldVxK_of_lowest hk hlow ht
  obtain ⟨hval, hpc, hframe⟩ := advance_setV_spec s x (keyByte k)
  exact ⟨_, ht, by rw [hval, toNat_keyByte], hpc, hframe⟩

/-! ### The timer transfers (R182 to R184) -/

/-- Settles O43: each is one write, of V[x] or of a timer. -/
theorem timerTransfers : Obligations.TimerTransfers := fun s x =>
  ⟨⟨_, rfl, advance_setV_spec s x s.dt⟩,
    ⟨_, rfl, rfl, rfl, exec_onlyChanges (i := .ldDtVx x) rfl⟩,
    ⟨_, rfl, rfl, rfl, exec_onlyChanges (i := .ldStVx x) rfl⟩⟩

/-! ### The skips on a key (R180, R181) -/

section SkipOnKey

variable {i : Instr} {pressed : Bool}

/-- V[x] is the index of a key: its latch decides the skip, which changes pc only. -/
theorem skipOnKey_of_index {p : Prop} [Decidable p] (hk : (s.getV x).toNat = k.val)
    (hp : (s.keys[k] == pressed) = true ↔ p) (h : skipOnKey i x pressed s = .next t) :
    t.pc = s.pc + (if p then 4 else 2) ∧ OnlyChanges [.pc] [] s t := by
  rcases skipOnKey_cases h with ⟨hrange, -⟩ | ⟨k', hk', rfl⟩
  · omega
  · obtain rfl : k' = k := Fin.ext (hk'.symm.trans hk)
    exact skipIf_spec s hp

/-- V[x] is no key's index: the machine takes the fault. -/
theorem skipOnKey_of_out_of_range (hrange : (s.getV x).toNat > 15) (h : skipOnKey i x pressed s = .next t) :
    HaltedFrom s .keyIndexOutOfRange (some (encode i)) (some (.key (s.getV x))) t := by
  rcases skipOnKey_cases h with ⟨-, rfl⟩ | ⟨k, hk, -⟩
  · exact haltedFrom_takeFault s _ _ _
  · omega

end SkipOnKey

/-- Settles O44: both are one shape; ExA1 skips when the latch is not set. -/
theorem skipOnKeyLatch : Obligations.SkipOnKeyLatch := by
  intro s x
  obtain ⟨t, ht⟩ := exec_answers_next (.skp x) s
  obtain ⟨u, hu⟩ := exec_answers_next (.sknp x) s
  refine ⟨fun k hk => ⟨⟨t, ht, skipOnKey_of_index hk beq_iff_eq ht⟩, ⟨u, hu, ?_⟩⟩, fun hrange =>
    ⟨⟨t, ht, skipOnKey_of_out_of_range hrange ht⟩, ⟨u, hu, skipOnKey_of_out_of_range hrange hu⟩⟩⟩
  rw [← ite_not]
  exact skipOnKey_of_index hk (by rw [beq_iff_eq, Bool.not_eq_true]) hu

end Sys2Proof.Machine
end

section
/-! PROOF. The faults of a cycle and the Halted machine (60_exceptions.md R200 to R205): O8, O9, O10, O46. -/

namespace Sys2Proof.Machine

variable {s t : State} {r : FaultRecord}

/-! ### A fault is precise (R201) -/

theorem precise_of_takeFault {c : FaultReason} {w : Option Word} {n : Option FaultInfo}
    (h : (s.takeFault c w n).status = .halted r) :
    r.pc0 = s.pc ∧ s.takeFault c w n = { s with status := .halted r } := by
  cases h
  exact ⟨rfl, rfl⟩

/-- What halts a Running machine has not left the status alone. -/
theorem status_ne_of_halted (hrun : s.Running) (hhalt : t.status = .halted r) : t.status ≠ s.status := by
  intro hsame
  cases hhalt.symm.trans (hsame.trans hrun)

/-- Settles O8: each of the three ways a cycle can halt is a taken fault. -/
theorem faultsArePrecise : Obligations.FaultsArePrecise := by
  intro s t r hrun hstep hhalt
  obtain ⟨-, ⟨-, rfl⟩ | ⟨w, -, -, rfl⟩ | ⟨w, i, -, -, hi⟩⟩ := step_cases hstep
  · exact precise_of_takeFault hhalt
  · exact precise_of_takeFault hhalt
  · rcases exec_takeFault_or_status hi with ⟨c, rfl⟩ | hsame
    · exact precise_of_takeFault hhalt
    · exact absurd hsame (status_ne_of_halted hrun hhalt)

/-! ### The address checks, by what they find (R205) -/

theorem firstFault_read_eq_some {n : Nat} {c : FaultCause} (h : firstFault readFault (s.eas n) = some c) :
    1 ≤ n ∧ s.index.toNat + n > 4096 ∧ c = ⟨.memoryOutOfBounds, some (.address (max s.index.toNat 4096))⟩ := by
  rw [firstFault_read] at h
  split at h
  · next hrange => exact ⟨hrange.1, hrange.2, (Option.some.inj h).symm⟩
  · cases h

theorem firstFault_write_eq_some {n : Nat} (hn : 1 ≤ n) {c : FaultCause}
    (h : firstFault writeFault (s.eas n) = some c) :
    (s.index.toNat ≤ 79 ∧ c = ⟨.fontWrite, some (.address s.index.toNat)⟩) ∨
    (s.index.toNat > 79 ∧ s.index.toNat + n > 4096 ∧
      c = ⟨.memoryOutOfBounds, some (.address (max s.index.toNat 4096))⟩) := by
  rw [firstFault_write s hn] at h
  split at h
  · next hfont => exact .inl ⟨hfont, (Option.some.inj h).symm⟩
  · next hfont =>
    split at h
    · next hend => exact .inr ⟨by omega, hend, (Option.some.inj h).symm⟩
    · cases h

/-! ### Every fault of an instruction is in the table (R200) -/

/-- How a store through I halts a Running machine: by the first check that fails. -/
theorem storeAtI_halts_cases {i : Instr} {bs : List Byte} (hrun : s.Running) (hlen : 1 ≤ bs.length)
    (h : storeAtI i bs s = .next t) (hhalt : t.status = .halted r) :
    (s.index.toNat ≤ 79 ∧ r = ⟨.fontWrite, s.pc, some (encode i), some (.address s.index.toNat)⟩) ∨
    (s.index.toNat > 79 ∧ s.index.toNat + bs.length > 4096 ∧
      r = ⟨.memoryOutOfBounds, s.pc, some (encode i), some (.address (max s.index.toNat 4096))⟩) := by
  rcases storeAtI_cases h with ⟨c, hcheck, rfl⟩ | ⟨-, rfl⟩
  · cases hhalt
    rcases firstFault_write_eq_some hlen hcheck with ⟨hfont, rfl⟩ | ⟨hfont, hend, rfl⟩
    · exact .inl ⟨hfont, rfl⟩
    · exact .inr ⟨hfont, hend, rfl⟩
  · exact absurd rfl (status_ne_of_halted hrun hhalt)

/-- How Ex9E and ExA1 halt a Running machine. -/
theorem skipOnKey_halts {i : Instr} {x : Reg} {pressed : Bool} (hrun : s.Running)
    (h : skipOnKey i x pressed s = .next t) (hhalt : t.status = .halted r) :
    (s.getV x).toNat > 15 ∧ r = ⟨.keyIndexOutOfRange, s.pc, some (encode i), some (.key (s.getV x))⟩ := by
  rcases skipOnKey_cases h with ⟨hrange, rfl⟩ | ⟨k, -, rfl⟩
  · cases hhalt
    exact ⟨hrange, rfl⟩
  · exact absurd rfl (status_ne_of_halted hrun hhalt)

/-- An instruction that halts a Running machine does so by a row of the table. -/
theorem exec_raisesWhen {w : Word} {i : Instr} (hrun : s.Running) (hfetch : s.fetch = some w)
    (hdecode : decodeWord w = some i) (h : exec i s = .next t) (hhalt : t.status = .halted r) : RaisesWhen s r := by
  have hfetches (c : FaultReason) (n : Option FaultInfo) : FetchesAs s ⟨c, s.pc, some (encode i), n⟩ (some i) :=
    ⟨w, hfetch, by rw [encode_of_decodeWord hdecode], hdecode⟩
  have hchanged : t.status ≠ s.status := status_ne_of_halted hrun hhalt
  cases i
  case ret =>
    rcases execRet_cases h with ⟨hsp, rfl⟩ | ⟨_, rfl⟩
    · cases hhalt
      exact ⟨rfl, hfetches _ _, hsp, rfl⟩
    · exact absurd rfl hchanged
  case call nnn =>
    rcases execCall_cases h with ⟨hsp, rfl⟩ | ⟨_, rfl⟩
    · cases hhalt
      exact ⟨rfl, ⟨nnn, hfetches _ _⟩, hsp, rfl⟩
    · exact absurd rfl hchanged
  case skp x =>
    obtain ⟨hrange, rfl⟩ := skipOnKey_halts hrun h hhalt
    exact ⟨rfl, x, .inl (hfetches _ _), hrange, rfl⟩
  case sknp x =>
    obtain ⟨hrange, rfl⟩ := skipOnKey_halts hrun h hhalt
    exact ⟨rfl, x, .inr (hfetches _ _), hrange, rfl⟩
  case drw x y n =>
    rcases execDrw_cases h with ⟨c, hcheck, rfl⟩ | ⟨-, cv, -, rfl⟩
    · obtain ⟨hn, hend, rfl⟩ := firstFault_read_eq_some hcheck
      cases hhalt
      exact ⟨rfl, rfl, .inl ⟨x, y, n, hfetches _ _, hn, by omega⟩⟩
    · exact absurd rfl hchanged
  case ldB x =>
    rcases storeAtI_halts_cases hrun (by simp [bcdDigits]) h hhalt with ⟨hfont, rfl⟩ | ⟨hfont, hend, rfl⟩
    · exact ⟨rfl, ⟨x, .inl (hfetches _ _)⟩, hfont, rfl⟩
    · exact ⟨rfl, rfl, .inr (.inl ⟨x, hfetches _ _, hfont, Nat.lt_of_succ_lt_succ hend⟩)⟩
  case storeRegs x =>
    have hlen := s.length_regsUpTo x
    rcases storeAtI_halts_cases hrun (by omega) h hhalt with ⟨hfont, rfl⟩ | ⟨hfont, hend, rfl⟩
    · exact ⟨rfl, ⟨x, .inr (hfetches _ _)⟩, hfont, rfl⟩
    · exact ⟨rfl, rfl, .inr (.inr (.inl ⟨x, hfetches _ _, hfont, by omega⟩))⟩
  case loadRegs x =>
    rcases execLoadRegs_cases h with ⟨c, hcheck, rfl⟩ | ⟨-, rfl⟩
    · obtain ⟨-, hend, rfl⟩ := firstFault_read_eq_some hcheck
      cases hhalt
      exact ⟨rfl, rfl, .inr (.inr (.inr ⟨x, hfetches _ _, by omega⟩))⟩
    · exact absurd rfl hchanged
  all_goals
    obtain ⟨hparts, -⟩ := exec_onlyChanges h
    exact absurd (hparts .status (by simp [writesPart])) hchanged

theorem step_raisesWhen (hrun : s.Running) (h : step s = .next t) (hhalt : t.status = .halted r) :
    RaisesWhen s r := by
  obtain ⟨-, ⟨hpc, rfl⟩ | ⟨w, hfetch, hdecode, rfl⟩ | ⟨w, i, hfetch, hdecode, hi⟩⟩ := step_cases h
  · cases hhalt
    exact ⟨rfl, hpc, rfl, rfl⟩
  · cases hhalt
    exact ⟨rfl, ⟨w, hfetch, rfl, hdecode⟩, rfl⟩
  · exact exec_raisesWhen hrun hfetch hdecode hi hhalt

/-! ### Every row of the table raises its fault (R200) -/

/-- The cycle of a machine in state `s` halts with record `r`. -/
def HaltsWith (s : State) (r : FaultRecord) : Prop := ∃ t, step s = .next t ∧ t.status = .halted r

/-- A fault of the decoded instruction is one of the cycle, and its record holds the fetched word. -/
theorem haltsWith_of_exec {c : FaultReason} {word : Option Word} {n : Option FaultInfo} {i : Instr}
    (hrun : s.Running) (hfetch : FetchesAs s ⟨c, s.pc, word, n⟩ (some i))
    (h : ∃ t, exec i s = .next t ∧ HaltedFrom s c (some (encode i)) n t) : HaltsWith s ⟨c, s.pc, word, n⟩ := by
  obtain ⟨w, hw, rfl, hdecode⟩ := hfetch
  obtain ⟨t, hexec, hhalt, -⟩ := h
  exact ⟨t, (step_eq_exec hrun hw hdecode).trans hexec, by rw [hhalt, encode_of_decodeWord hdecode]⟩

theorem haltsWith_of_raisesWhen (hrun : s.Running) (h : RaisesWhen s r) : HaltsWith s r := by
  obtain ⟨reason, pc0, word, info⟩ := r
  obtain ⟨rfl, hrow⟩ := h
  cases reason
  case fetchOutOfBounds =>
    obtain ⟨hpc, rfl, rfl⟩ := hrow
    exact ⟨_, step_of_pc_past_end hrun hpc, rfl⟩
  case decodeError =>
    obtain ⟨⟨w, hfetch, rfl, hdecode⟩, rfl⟩ := hrow
    exact ⟨_, step_of_illegal_word hrun hfetch hdecode, rfl⟩
  case stackOverflow =>
    obtain ⟨⟨nnn, hfetch⟩, hsp, rfl⟩ := hrow
    obtain ⟨-, hfault⟩ := callPushesOrOverflows s nnn
    exact haltsWith_of_exec hrun hfetch (hfault hsp)
  case stackUnderflow =>
    obtain ⟨hfetch, hsp, rfl⟩ := hrow
    obtain ⟨t, ht⟩ := exec_answers_next .ret s
    exact haltsWith_of_exec hrun hfetch ⟨t, ht, execRet_underflows hsp ht⟩
  case keyIndexOutOfRange =>
    obtain ⟨x, hfetch, hrange, rfl⟩ := hrow
    obtain ⟨-, hfault⟩ := skipOnKeyLatch s x
    obtain ⟨hskp, hsknp⟩ := hfault hrange
    rcases hfetch with hfetch | hfetch
    · exact haltsWith_of_exec hrun hfetch hskp
    · exact haltsWith_of_exec hrun hfetch hsknp
  case fontWrite =>
    obtain ⟨⟨x, hfetch⟩, hfont, rfl⟩ := hrow
    rcases hfetch with hfetch | hfetch
    · obtain ⟨-, hfault, -⟩ := bcdStoresThreeDigits s x
      exact haltsWith_of_exec hrun hfetch (hfault hfont)
    · obtain ⟨-, hfault, -⟩ := storeRegistersFromIndexOn s x
      exact haltsWith_of_exec hrun hfetch (hfault hfont)
  case memoryOutOfBounds =>
    obtain ⟨rfl, ⟨x, y, n, hfetch, hn, hend⟩ | ⟨x, hfetch, hfont, hend⟩ | ⟨x, hfetch, hfont, hend⟩ |
      ⟨x, hfetch, hend⟩⟩ := hrow
    · obtain ⟨-, hfault⟩ := drawInvertsTheCoveredPixels s x y n
      exact haltsWith_of_exec hrun hfetch (hfault (by omega) hn)
    · obtain ⟨-, -, hfault⟩ := bcdStoresThreeDigits s x
      exact haltsWith_of_exec hrun hfetch (hfault hfont hend)
    · obtain ⟨-, -, hfault⟩ := storeRegistersFromIndexOn s x
      exact haltsWith_of_exec hrun hfetch (hfault hfont hend)
    · exact haltsWith_of_exec hrun hfetch (execLoadRegs_of_past_end hend)

/-- Settles O9: a halting cycle is at a row of the table, and each row halts the cycle. -/
theorem faultsAreExactlyThoseOfTheTable : Obligations.FaultsAreExactlyThoseOfTheTable :=
  ⟨fun _ _ hrun => ⟨fun ⟨_, hstep, hhalt⟩ => step_raisesWhen hrun hstep hhalt, haltsWith_of_raisesWhen hrun⟩, rfl⟩

/-! ### The Halted machine (R202), and the report of a cycle (R230) -/

theorem step_of_halted (h : s.status = .halted r) : step s = .fault (.halted r) := by
  simp only [step, h]

theorem hostStep_of_halted (font : Config.Font) {op : HostOp} (h : s.status = .halted r) (hop : op ≠ .initMachine) :
    hostStep font op s = .fault (.halted r) := by
  simp only [hostStep, h]

theorem hostStep_initMachine (font : Config.Font) (s : State) :
    hostStep font .initMachine s = .next (s.initialized font, .done) := by
  cases h : s.status <;> simp only [hostStep, h, runningOp]

/-- Settles O10: only building a new machine has a step, and of the old machine that keeps the draw counter alone. -/
theorem haltedIsAbsorbing : Obligations.HaltedIsAbsorbing := fun font s _ hhalt =>
  ⟨step_of_halted hhalt, fun _ hop => hostStep_of_halted font hhalt hop, _, hostStep_initMachine font s,
    by simp [onlyChanges_iff, State.initialized, State.getV]⟩

/-- A Running machine has a step (30_encoding.md R93). -/
theorem step_answers_next (hrun : s.Running) : ∃ t, step s = .next t := by
  by_cases hpc : s.pc.toNat ≤ 4094
  · have hfetch := s.fetch_eq hpc
    cases hdecode : decodeWord (joinBytes (s.mem.read s.pc.toNat) (s.mem.read (s.pc.toNat + 1))) with
    | none => exact ⟨_, step_of_illegal_word hrun hfetch hdecode⟩
    | some i => exact step_eq_exec hrun hfetch hdecode ▸ exec_answers_next i s
  · exact ⟨_, step_of_pc_past_end hrun (by omega)⟩

/-- Settles O46: the report is read off the status that the step left. -/
theorem executeOneIsAStepWithItsReport : Obligations.ExecuteOneIsAStepWithItsReport := by
  intro font s hrun
  obtain ⟨t, hstep⟩ := step_answers_next hrun
  have hexecute := hostStep_executeOne (font := font) hrun hstep
  refine ⟨t, hstep, ?_⟩
  unfold reportOf at hexecute
  cases hstatus : t.status with
  | running => exact .inl ⟨hstatus, by simpa only [hstatus] using hexecute⟩
  | halted r => exact .inr ⟨r, rfl, by simpa only [hstatus] using hexecute⟩

end Sys2Proof.Machine
end

section
/-! PROOF. The timers and the host operations that tick, press, read, save and restore (60_exceptions.md R220 to R227):
O18, O47, O48, O49, O51, O52. -/

namespace Sys2Proof.Machine

variable {s t : State}

/-! ### Timers and latches (R220 to R223) -/

theorem dt_mem_writesPart {i : Instr} : .dt ∈ writesPart i ↔ ∃ x, i = .ldDtVx x := by cases i <;> simp [writesPart]

theorem st_mem_writesPart {i : Instr} : .st ∈ writesPart i ↔ ∃ x, i = .ldStVx x := by cases i <;> simp [writesPart]

/-- Settles O18: in the write table DT stands in the row of Fx15 alone, and ST in that of Fx18 alone. -/
theorem timersChangeOnlyByTheirInstructions : Obligations.TimersChangeOnlyByTheirInstructions := by
  intro i s t h
  obtain ⟨hparts, -⟩ := exec_onlyChanges h
  refine ⟨fun hne => hparts .dt ?_, fun hne => hparts .st ?_⟩
  · rw [dt_mem_writesPart]
    exact fun ⟨x, hx⟩ => hne x hx
  · rw [st_mem_writesPart]
    exact fun ⟨x, hx⟩ => hne x hx

/-- On a Running machine a host operation is `runningOp` (R230). -/
theorem hostStep_of_running (font : Config.Font) (op : HostOp) (hrun : s.Running) :
    hostStep font op s = runningOp font op s := by
  have hstatus : s.status = .running := hrun
  simp only [hostStep, hstatus]

theorem byte_ne_zero_iff (b : Byte) : (b != 0) = true ↔ b.toNat ≠ 0 := by
  rw [bne_iff_ne, ne_eq, ← BitVec.toNat_inj]
  rfl

/-- Settles O47: each timer is one tick, and the report reads ST before or after it. -/
theorem advanceTimersCountsDown : Obligations.AdvanceTimersCountsDown := by
  intro font s hrun
  refine ⟨s.ticked, soundFlag Config.soundSample s.st s.ticked.st, hostStep_of_running font _ hrun, toNat_tick s.dt,
    toNat_tick s.st, by simp [onlyChanges_iff, State.ticked, State.getV], ?_⟩
  cases Config.soundSample with
  | pre => exact byte_ne_zero_iff s.st
  | post => exact (byte_ne_zero_iff (tick s.st)).trans (by rw [toNat_tick])

theorem withKey_onlyChanges (s : State) (k : Option Nat) (pressed : Bool) :
    OnlyChanges [.keys] [] s (s.withKey k pressed) := by
  rw [withKey_keepsRest]
  simp [onlyChanges_iff, State.getV]

/-- Settles O48: `set_key` writes the latches only, and of them the one with that index. -/
theorem setKeySetsOneLatch : Obligations.SetKeySetsOneLatch := fun font s k pressed hrun =>
  ⟨_, hostStep_of_running font _ hrun, withKey_onlyChanges s k pressed, withKey_keys s k pressed⟩

/-! ### The record of a state (R226) -/

theorem length_screenBits (fb : Framebuffer) : (screenBits fb).length = 2048 := by simp [screenBits]

/-- The screen is row-major. -/
theorem getElem?_screenBits (fb : Framebuffer) (row : Fin 32) (col : Fin 64) :
    (screenBits fb)[row.val * 64 + col.val]? = some (pixel fb row col) := by
  have hrow : (row.val * 64 + col.val) / 64 = row.val := by omega
  have hcol : (row.val * 64 + col.val) % 64 = col.val := by omega
  rw [screenBits, List.getElem?_map, List.getElem?_range (by omega), Option.map_some, hrow, hcol]
  simp

theorem getElem?_readBytes (m : Memory) {a n : Nat} (h : a < n) : (m.readBytes 0 n)[a]? = some (m.read a) := by
  rw [List.getElem?_eq_getElem (by simpa using h), Memory.getElem_readBytes, Nat.zero_add]

/-- sp fits in the 8 bits that the record has for it. -/
theorem toNat_ofNat_sp (k : Fin 17) : (BitVec.ofNat 8 k.val).toNat = k.val := by
  rw [BitVec.toNat_ofNat]
  omega

/-- Settles O49: each field of the record is its component, read position by position. -/
theorem readingsChangeNothing : Obligations.ReadingsChangeNothing := fun font s fps hrun =>
  ⟨hostStep_of_running font _ hrun, s.snapshotRecord fps, hostStep_of_running font _ hrun,
    ⟨_, rfl, Memory.length_readBytes _ _ _, fun _ ha => getElem?_readBytes s.mem ha⟩,
    ⟨_, rfl, Vector.length_toList, fun _ => by simp⟩,
    ⟨_, rfl, Vector.length_toList, fun _ => by simp [State.getV]⟩,
    ⟨_, rfl, Vector.length_toList, fun _ => by simp⟩,
    ⟨_, rfl, length_screenBits s.fb, getElem?_screenBits s.fb⟩,
    rfl, rfl, ⟨_, rfl, toNat_ofNat_sp s.sp⟩, rfl, rfl, rfl, rfl⟩

/-! ### What `restore` takes a record for: the state it is the snapshot of (R227) -/

theorem vectorOf_eq_some_iff {α : Type} {n : Nat} {l : List α} {v : Vector α n} :
    vectorOf n l = some v ↔ l = v.toList := by
  constructor
  · exact fun h => (vectorOf_eq_some h).2.symm
  · rintro rfl
    exact vectorOf_toList v

theorem bytesField_eq_some_iff {n : Nat} {o : Option FieldValue} {v : Vector Byte n} :
    bytesField n o = some v ↔ o = some (.bytes v.toList) := by
  simp [bytesField_eq_some, vectorOf_eq_some_iff]

theorem wordsField_eq_some_iff {n : Nat} {o : Option FieldValue} {v : Vector Word n} :
    wordsField n o = some v ↔ o = some (.words v.toList) := by
  simp [wordsField_eq_some, vectorOf_eq_some_iff]

theorem boolsField_eq_some_iff {n : Nat} {o : Option FieldValue} {v : Vector Bool n} :
    boolsField n o = some v ↔ o = some (.bools v.toList) := by
  simp [boolsField_eq_some, vectorOf_eq_some_iff]

theorem spField_eq_some_iff {o : Option FieldValue} {k : Fin 17} :
    (num8Field o).bind spOf = some k ↔ o = some (.num8 (BitVec.ofNat 8 k.val)) := by
  have hbyte (b : Byte) : b.toNat = k.val ↔ b = BitVec.ofNat 8 k.val := by
    rw [← BitVec.toNat_inj, toNat_ofNat_sp]
  simp [Option.bind_eq_some_iff, num8Field_eq_some, spOf_eq_some, hbyte]

theorem Memory.readBytes_ofBytes {l : List Byte} (h : l.length = 4096) :
    (Memory.ofBytes 0 l).readBytes 0 Config.memSize = l := by
  refine List.ext_getElem (by rw [Memory.length_readBytes, h]) fun k hk hk' => ?_
  rw [Memory.getElem_readBytes]
  exact Memory.read_ofBytes l hk' (by omega)

/-- The 4096 bytes of a record and the canonical memory determine each other. -/
theorem memoryField_iff {o : Option FieldValue} {m : Memory} :
    (∃ mem, bytesField 4096 o = some mem ∧ m = Memory.ofBytes 0 mem.toList) ↔
      o = some (.bytes (m.readBytes 0 Config.memSize)) ∧ m.wf = true := by
  constructor
  · rintro ⟨mem, hmem, rfl⟩
    have hlen : mem.toList.length = 4096 := Vector.length_toList
    rw [bytesField_eq_some_iff] at hmem
    exact ⟨by rw [Memory.readBytes_ofBytes hlen, hmem], Memory.wf_ofBytes _ hlen.le⟩
  · rintro ⟨hmem, hwf⟩
    obtain ⟨mem, -, hbytes⟩ := vectorOf_eq (m.length_readBytes 0 Config.memSize)
    exact ⟨mem, bytesField_eq_some_iff.mpr (hbytes ▸ hmem), by rw [hbytes, Memory.ofBytes_readBytes hwf]⟩

/-- The 2048 cells of a record and the framebuffer determine each other. -/
theorem screenField_iff {o : Option FieldValue} {fb : Framebuffer} :
    (∃ screen, boolsField 2048 o = some screen ∧ fb = screenOf screen.toList) ↔ o = some (.bools (screenBits fb)) := by
  constructor
  · rintro ⟨screen, hscreen, rfl⟩
    rw [screenBits_screenOf Vector.length_toList, boolsField_eq_some_iff.mp hscreen]
  · intro hscreen
    obtain ⟨screen, -, hcells⟩ := vectorOf_eq (length_screenBits fb)
    exact ⟨screen, boolsField_eq_some_iff.mpr (hcells ▸ hscreen), by rw [hcells, screenOf_screenBits]⟩

theorem eq_snapshotRecord_iff {r : PersistedRecord} {fps : BitVec 32} : r = t.snapshotRecord fps ↔
    r.memory = some (.bytes (t.mem.readBytes 0 Config.memSize)) ∧ r.stack = some (.words t.stack.toList) ∧
      r.v = some (.bytes t.v.toList) ∧ r.keys = some (.bools t.keys.toList) ∧
      r.screen = some (.bools (screenBits t.fb)) ∧ r.i = some (.num16 t.index) ∧ r.pc = some (.num16 t.pc) ∧
      r.sp = some (.num8 (BitVec.ofNat 8 t.sp.val)) ∧ r.delayTimer = some (.num8 t.dt) ∧
      r.soundTimer = some (.num8 t.st) ∧ r.fps = some (.num32 fps) ∧ r.unknown = [] := by
  cases r
  simp only [State.snapshotRecord, PersistedRecord.mk.injEq]

/-- A record is taken for a state exactly when it is the snapshot of that state, Running, with canonical memory. -/
theorem toState_eq_some_iff {r : PersistedRecord} {d : Nat} {fps : BitVec 32} :
    r.toState d = some (t, fps) ↔ r = t.snapshotRecord fps ∧ t.Running ∧ t.mem.wf = true ∧ t.draws = d := by
  rw [toState_eq_some, eq_snapshotRecord_iff]
  simp only [wordsField_eq_some_iff, boolsField_eq_some_iff (n := 16), bytesField_eq_some_iff (n := 16),
    spField_eq_some_iff, num8Field_eq_some, num16Field_eq_some, num32Field_eq_some]
  constructor
  · rintro ⟨hunknown, mem, hmem, hstack, hv, hkeys, hscreen, hi, hpc, hsp, hdt, hst, hfps, htmem, hrun, hdraws⟩
    obtain ⟨hmemory, hwf⟩ := memoryField_iff.mp ⟨mem, hmem, htmem⟩
    exact ⟨⟨hmemory, hstack, hv, hkeys, screenField_iff.mp hscreen, hi, hpc, hsp, hdt, hst, hfps, hunknown⟩, hrun,
      hwf, hdraws⟩
  · rintro ⟨⟨hmemory, hstack, hv, hkeys, hscreen, hi, hpc, hsp, hdt, hst, hfps, hunknown⟩, hrun, hwf, hdraws⟩
    obtain ⟨mem, hmem, htmem⟩ := memoryField_iff.mpr ⟨hmemory, hwf⟩
    exact ⟨hunknown, mem, hmem, hstack, hv, hkeys, screenField_iff.mpr hscreen, hi, hpc, hsp, hdt, hst, hfps, htmem,
      hrun, hdraws⟩

theorem hostStep_restore_of_some {r : PersistedRecord} {fps : BitVec 32} (font : Config.Font) (hrun : s.Running)
    (h : r.toState s.draws = some (t, fps)) : hostStep font (.restore r) s = .next (t, .restored fps) := by
  rw [hostStep_of_running font _ hrun]
  simp only [runningOp, h]

theorem hostStep_restore_of_none {r : PersistedRecord} (font : Config.Font) (hrun : s.Running)
    (h : r.toState s.draws = none) : hostStep font (.restore r) s = .next (s, .restoreError) := by
  rw [hostStep_of_running font _ hrun]
  simp only [runningOp, h]

/-- Settles O51: the snapshot is taken for the saved state, with the draw counter of the machine it is restored into. -/
theorem snapshotThenRestoreIsIdentity : Obligations.SnapshotThenRestoreIsIdentity := by
  intro font s s' fps hrun hrun' hwf
  have htaken : (s.snapshotRecord fps).toState s'.draws = some ({ s with draws := s'.draws }, fps) :=
    toState_eq_some_iff.mpr ⟨rfl, hrun, hwf, rfl⟩
  exact hostStep_restore_of_some font hrun' htaken

/-! ### Which records are refused (R227) -/

/-- A snapshot has every field, with its type and length. -/
theorem recordOk_snapshotRecord (s : State) (fps : BitVec 32) : RecordOk (s.snapshotRecord fps) :=
  ⟨rfl, ⟨_, rfl, Memory.length_readBytes _ _ _⟩, ⟨_, rfl, Vector.length_toList⟩, ⟨_, rfl, Vector.length_toList⟩,
    ⟨_, rfl, Vector.length_toList⟩, ⟨_, rfl, length_screenBits s.fb⟩, ⟨_, rfl⟩, ⟨_, rfl⟩,
    ⟨_, rfl, (toNat_ofNat_sp s.sp).trans_le s.sp.is_le⟩, ⟨_, rfl⟩, ⟨_, rfl⟩, ⟨_, rfl⟩⟩

/-- An ok record is the snapshot of the state its fields describe. -/
theorem exists_toState_of_recordOk {r : PersistedRecord} (h : RecordOk r) (d : Nat) :
    ∃ t fps, r.toState d = some (t, fps) := by
  obtain ⟨hunknown, ⟨mem, hmem, hmemLen⟩, ⟨_, hstack, hstackLen⟩, ⟨_, hv, hvLen⟩, ⟨_, hkeys, hkeysLen⟩,
    ⟨screen, hscreen, hscreenLen⟩, ⟨index, hi⟩, ⟨pc, hpc⟩, ⟨sp, hsp, hspLe⟩, ⟨dt, hdt⟩, ⟨st, hst⟩, ⟨fps, hfps⟩⟩ := h
  obtain ⟨stack, -, rfl⟩ := vectorOf_eq hstackLen
  obtain ⟨v, -, rfl⟩ := vectorOf_eq hvLen
  obtain ⟨keys, -, rfl⟩ := vectorOf_eq hkeysLen
  have hspField : r.sp = some (.num8 (BitVec.ofNat 8 sp.toNat)) := by simpa using hsp
  have hmemField : r.memory = some (.bytes ((Memory.ofBytes 0 mem).readBytes 0 Config.memSize)) := by
    rw [Memory.readBytes_ofBytes hmemLen, hmem]
  have hscreenField : r.screen = some (.bools (screenBits (screenOf screen))) := by
    rw [screenBits_screenOf hscreenLen, hscreen]
  refine ⟨⟨v, pc, index, stack, ⟨sp.toNat, by omega⟩, dt, st, keys, screenOf screen, Memory.ofBytes 0 mem, .running, d⟩,
    fps, toState_eq_some_iff.mpr ⟨eq_snapshotRecord_iff.mpr ?_, rfl, Memory.wf_ofBytes mem hmemLen.le, rfl⟩⟩
  exact ⟨hmemField, hstack, hv, hkeys, hscreenField, hi, hpc, hspField, hdt, hst, hfps, hunknown⟩

theorem toState_eq_none_of_not_recordOk {r : PersistedRecord} (h : ¬RecordOk r) (d : Nat) : r.toState d = none := by
  refine Option.eq_none_iff_forall_ne_some.mpr fun ⟨t, fps⟩ hsome => h ?_
  obtain ⟨rfl, -⟩ := toState_eq_some_iff.mp hsome
  exact recordOk_snapshotRecord t fps

/-- Settles O52: a record that is taken is a snapshot, hence ok, and an ok record is taken for the state it describes. -/
theorem restoreRejectsExactlyBadRecords : Obligations.RestoreRejectsExactlyBadRecords := by
  intro font s r hrun
  have htaken (hok : RecordOk r) : ∃ t fps, hostStep font (.restore r) s = .next (t, .restored fps) ∧ t.Running ∧
      t.snapshotRecord fps = r := by
    obtain ⟨t, fps, hsome⟩ := exists_toState_of_recordOk hok s.draws
    obtain ⟨hrecord, htrun, -⟩ := toState_eq_some_iff.mp hsome
    exact ⟨t, fps, hostStep_restore_of_some font hrun hsome, htrun, hrecord.symm⟩
  refine ⟨⟨fun hreject hok => ?_, fun hbad => ?_⟩, htaken⟩
  · obtain ⟨t, fps, haccept, -⟩ := htaken hok
    cases hreject.symm.trans haccept
  · exact hostStep_restore_of_none font hrun (toState_eq_none_of_not_recordOk hbad s.draws)

end Sys2Proof.Machine
end

section
/-! PROOF. Reset and program load, and what rests on the host's calls (70_reset_and_hazards.md R250 to R262): O12, O50,
O53, O54. -/

namespace Sys2Proof.Machine

variable {font : Config.Font} {s t u : State} {x : Reg}

/-! ### The reset values (R250) and the program load (R251, R252) -/

theorem initialized_onlyChanges (font : Config.Font) (s : State) :
    OnlyChanges [.draws] [] (State.resetWith font) (s.initialized font) := by
  simp [onlyChanges_iff, State.initialized, State.getV]

/-- Settles O12: the new machine is `State.resetWith` but for the draw counter, and its memory is FONT, then zeros. -/
theorem resetAndInitializeValues : Obligations.ResetAndInitializeValues := by
  refine ⟨fun font s => ⟨_, hostStep_initMachine font s, fun x => ?_, rfl, rfl, fun j => ?_, rfl, rfl, rfl, fun k => ?_,
    pixel_clearFb, read_resetWith font, fun a ha _ => read_resetWith_above font ha, rfl,
    initialized_onlyChanges font s⟩, resetWith_defaultFont, by decide⟩
  · exact Vector.getElem_replicate x.isLt
  · exact Vector.getElem_replicate j.isLt
  · exact Vector.getElem_replicate k.isLt

theorem hostStep_loadProgram_of_fits (font : Config.Font) {bytes : List Byte} (hrun : s.Running)
    (hlen : bytes.length ≤ 3584) : hostStep font (.loadProgram bytes) s = .next (s.loaded bytes, .done) := by
  rw [hostStep_of_running font _ hrun]
  exact if_neg (Nat.not_lt.mpr hlen)

theorem hostStep_loadProgram_of_too_long (font : Config.Font) {bytes : List Byte} (hrun : s.Running)
    (hlen : bytes.length > 3584) : hostStep font (.loadProgram bytes) s = .next (s, .loadError) := by
  rw [hostStep_of_running font _ hrun]
  exact if_pos hlen

theorem loaded_onlyChanges (s : State) (bytes : List Byte) : OnlyChanges [.memory] [] s (s.loaded bytes) := by
  simp [onlyChanges_iff, State.loaded, State.getV]

/-- Settles O50: a program that fits is one block of bytes written from 512 on. -/
theorem loadProgramCopiesOrRefuses : Obligations.LoadProgramCopiesOrRefuses := by
  intro font s bytes hrun
  refine ⟨fun hlen => ⟨_, hostStep_loadProgram_of_fits font hrun hlen, loaded_onlyChanges s bytes,
    fun a ha => Memory.read_writeBytes_outside s.mem bytes ha, fun hwf j hj => ?_⟩,
    hostStep_loadProgram_of_too_long font hrun⟩
  have hread : (s.loaded bytes).mem.read (512 + j) = bytes[j] := Memory.read_writeBytes hwf bytes hj (by simp; omega)
  rw [hread, List.getElem?_eq_getElem hj]

/-! ### The calls of a host in its driver loop (R253) -/

/-- What one call of a host in its driver loop does to a Running machine. -/
inductive DriverCall : HostOp → State → State → Prop where
  | execute {s t : State} (hstep : step s = .next t) : DriverCall .executeOne s t
  | tick {s : State} : DriverCall .advanceTimers s s.ticked
  | setKey {s : State} (k : Option Nat) (p : Bool) : DriverCall (.setKey k p) s (s.withKey k p)
  | readFramebuffer {s : State} : DriverCall .readFramebuffer s s
  | snapshot {s : State} (fps : BitVec 32) : DriverCall (.snapshot fps) s s

variable {op : HostOp} {h : HostCalls} {n : Nat}

theorem exists_driverCall (font : Config.Font) (hrun : s.Running)
    (hop : op ≠ .initMachine ∧ (∀ bytes, op ≠ .loadProgram bytes) ∧ ∀ r, op ≠ .restore r) :
    ∃ t a, hostStep font op s = .next (t, a) ∧ DriverCall op s t := by
  obtain ⟨hinit, hload, hrestore⟩ := hop
  cases op with
  | initMachine => exact absurd rfl hinit
  | loadProgram bytes => exact absurd rfl (hload bytes)
  | restore r => exact absurd rfl (hrestore r)
  | executeOne =>
    obtain ⟨t, hstep⟩ := step_answers_next hrun
    exact ⟨t, _, hostStep_executeOne hrun hstep, .execute hstep⟩
  | advanceTimers => exact ⟨_, _, hostStep_of_running font _ hrun, .tick⟩
  | setKey k p => exact ⟨_, _, hostStep_of_running font _ hrun, .setKey k p⟩
  | readFramebuffer => exact ⟨_, _, hostStep_of_running font _ hrun, .readFramebuffer⟩
  | snapshot fps => exact ⟨_, _, hostStep_of_running font _ hrun, .snapshot fps⟩

theorem afterCalls_succ {a : Answer} (ht : afterCalls font h s n = some t)
    (hcall : hostStep font (h n) t = .next (u, a)) :
    afterCalls font h s (n + 1) = some u := by
  simp only [afterCalls, ht, hcall]

/-- From a Running machine the next call of the driver loop has a step. -/
theorem exists_afterCalls_succ (hloop : h.InDriverLoop) (ht : afterCalls font h s n = some t) (hrun : t.Running) :
    ∃ u, afterCalls font h s (n + 1) = some u ∧ DriverCall (h n) t u := by
  obtain ⟨u, a, hstep, hcall⟩ := exists_driverCall font hrun (hloop n)
  exact ⟨u, afterCalls_succ ht hstep, hcall⟩

/-- Two successive states of a run are a call apart. -/
theorem driverCall_of_afterCalls (hloop : h.InDriverLoop) (ht : afterCalls font h s n = some t) (hrun : t.Running)
    (hu : afterCalls font h s (n + 1) = some u) : DriverCall (h n) t u := by
  obtain ⟨u', hu', hcall⟩ := exists_afterCalls_succ hloop ht hrun
  cases hu.symm.trans hu'
  exact hcall

/-! ### What a step and a call leave of the latches and of DT (R220, R223) -/

theorem step_eq_exec_of_decodes {i : Instr} (hrun : s.Running) (hdecode : s.fetch.bind decodeWord = some i) :
    step s = exec i s := by
  obtain ⟨w, hfetch, hw⟩ := Option.bind_eq_some_iff.mp hdecode
  exact step_eq_exec hrun hfetch hw

theorem step_keys (hstep : step s = .next t) : t.keys = s.keys := by
  obtain ⟨-, ⟨-, rfl⟩ | ⟨w, -, -, rfl⟩ | ⟨w, i, -, -, hexec⟩⟩ := step_cases hstep
  · rfl
  · rfl
  · exact (keysAndFramebufferWriters i s t hexec).1

theorem step_dt (hstep : step s = .next t) (hno : ∀ x, s.fetch.bind decodeWord ≠ some (.ldDtVx x)) : t.dt = s.dt := by
  obtain ⟨-, ⟨-, rfl⟩ | ⟨w, -, -, rfl⟩ | ⟨w, i, hfetch, hdecode, hexec⟩⟩ := step_cases hstep
  · rfl
  · rfl
  · refine (timersChangeOnlyByTheirInstructions i s t hexec).1 fun x hi => hno x ?_
    rw [hfetch, Option.bind_some, hdecode, hi]

/-- A latch keeps its value unless a `set_key` gives it the other one. -/
theorem DriverCall.keeps_latch {k : Fin 16} {p : Bool} (hcall : DriverCall op s t)
    (hop : op ≠ .setKey (some k.val) (!p)) (hk : s.keys[k] = p) : t.keys[k] = p := by
  cases hcall with
  | execute hstep => rw [step_keys hstep, hk]
  | tick | readFramebuffer | snapshot => exact hk
  | setKey j q =>
    rw [withKey_keys]
    split
    · next hj =>
      subst hj
      by_contra hq
      exact hop (by rw [Bool.eq_not_of_ne hq])
    · exact hk

theorem DriverCall.dt_of_tick (hcall : DriverCall op s t) (hop : op = .advanceTimers) : t.dt.toNat = s.dt.toNat - 1 := by
  subst hop
  cases hcall
  exact toNat_tick s.dt

theorem DriverCall.dt_of_no_tick (hcall : DriverCall op s t) (hop : op ≠ .advanceTimers)
    (hno : op = .executeOne → ∀ x, s.fetch.bind decodeWord ≠ some (.ldDtVx x)) : t.dt = s.dt := by
  cases hcall with
  | execute hstep => exact step_dt hstep (hno rfl)
  | tick => exact absurd rfl hop
  | setKey k p => rw [withKey_keepsRest]
  | readFramebuffer | snapshot => rfl

/-! ### The key wait (R257, R262) -/

theorem ticked_onlyChanges (s : State) : OnlyChanges [.dt, .st] [] s s.ticked := by
  simp [onlyChanges_iff, State.ticked, State.getV]

/-- `t` is `s` but for the timers and the latches, which the host changes while an Fx0A repeats. -/
def WaitsAs (s t : State) : Prop := OnlyChanges [.dt, .st, .keys] [] s t

theorem WaitsAs.pc_eq (hw : WaitsAs s t) : t.pc = s.pc := hw.1 .pc (by simp)

theorem WaitsAs.running (hw : WaitsAs s t) (hrun : s.Running) : t.Running := by
  have hstatus : t.status = s.status := hw.1 .status (by simp)
  exact hstatus.trans hrun

theorem WaitsAs.fetch_eq (hw : WaitsAs s t) : t.fetch = s.fetch := by
  have hmem : ∀ a, t.mem.read a = s.mem.read a := hw.1 .memory (by simp)
  simp only [State.fetch, hw.pc_eq, hmem]

/-- A call at an Fx0A leaves the machine waiting, and then an execution found no key; or it found one and went on. -/
theorem DriverCall.waitsAs_or_leaves (hcall : DriverCall op s t) (hrun : s.Running)
    (hwait : s.fetch.bind decodeWord = some (.ldVxK x)) :
    (WaitsAs s t ∧ (op = .executeOne → ∀ k : Fin 16, s.keys[k] = false)) ∨
    ((∃ k : Fin 16, s.keys[k] = true) ∧ t.Running ∧ t.pc = s.pc + 2) := by
  cases hcall with
  | execute hstep =>
    rw [step_eq_exec_of_decodes hrun hwait] at hstep
    rcases execLdVxK_cases hstep with ⟨k, hk, -, rfl⟩ | ⟨hnone, rfl⟩
    · exact .inr ⟨⟨k, hk⟩, hrun, rfl⟩
    · exact .inl ⟨.refl _ _ _, fun _ => hnone⟩
  | tick => exact .inl ⟨(ticked_onlyChanges s).mono (by simp) (by simp), by simp⟩
  | setKey k p => exact .inl ⟨(withKey_onlyChanges s k p).mono (by simp) (by simp), by simp⟩
  | readFramebuffer | snapshot => exact .inl ⟨.refl _ _ _, by simp⟩

/-- After `n` calls the machine still waits at the Fx0A where it began. -/
def WaitsAfter (font : Config.Font) (h : HostCalls) (s : State) (n : Nat) : Prop :=
  ∃ t, afterCalls font h s n = some t ∧ WaitsAs s t

/-- After `n` calls the machine is past the Fx0A where it began. -/
def PastAfter (font : Config.Font) (h : HostCalls) (s : State) (n : Nat) : Prop :=
  ∃ t, afterCalls font h s n = some t ∧ t.Running ∧ t.pc = s.pc + 2

section KeyWait

variable (hrun : s.Running) (hloop : h.InDriverLoop)
include hrun hloop

/-- A key pressed by call `m` is down after every later call up to `e`, if none of them releases it. -/
theorem pressed_until {m e j : Nat} {k : Fin 16} (hall : ∀ n, WaitsAfter font h s n)
    (hpress : h m = .setKey (some k.val) true) (hhold : ∀ j, m < j → j < e → h j ≠ .setKey (some k.val) false)
    (hmj : m + 1 ≤ j) (hje : j ≤ e) (hj : afterCalls font h s j = some t) : t.keys[k] = true := by
  induction j, hmj using Nat.le_induction generalizing t with
  | base =>
    obtain ⟨t₀, ht₀, hw⟩ := hall m
    have hcall := driverCall_of_afterCalls hloop ht₀ (hw.running hrun) hj
    rw [hpress] at hcall
    cases hcall
    rw [withKey_keys, if_pos rfl]
  | succ j hmj ih =>
    obtain ⟨t₀, ht₀, hw⟩ := hall j
    have hcall := driverCall_of_afterCalls hloop ht₀ (hw.running hrun) hj
    exact hcall.keeps_latch (hhold j hmj hje) (ih (by omega) ht₀)

variable (hwait : s.fetch.bind decodeWord = some (.ldVxK x))
include hwait

/-- The call after which a waiting machine waits or is past the Fx0A. -/
theorem waits_call (ht : afterCalls font h s n = some t) (hw : WaitsAs s t) :
    ∃ u, afterCalls font h s (n + 1) = some u ∧ DriverCall (h n) t u ∧
      ((WaitsAs s u ∧ (h n = .executeOne → ∀ k : Fin 16, t.keys[k] = false)) ∨
        ((∃ k : Fin 16, t.keys[k] = true) ∧ u.Running ∧ u.pc = s.pc + 2)) := by
  have htrun := hw.running hrun
  obtain ⟨u, hu, hcall⟩ := exists_afterCalls_succ hloop ht htrun
  refine ⟨u, hu, hcall, ?_⟩
  rcases hcall.waitsAs_or_leaves htrun (hw.fetch_eq ▸ hwait) with ⟨hwu, hnone⟩ | ⟨hkey, hurun, hpc⟩
  · exact .inl ⟨OnlyChanges.trans hw hwu, hnone⟩
  · exact .inr ⟨hkey, hurun, by rw [hpc, hw.pc_eq]⟩

/-- A machine that is not past the Fx0A so far still waits at it. -/
theorem waitsAfter_of_not_past (hnot : ∀ m, m ≤ n → ¬PastAfter font h s m) : WaitsAfter font h s n := by
  induction n with
  | zero => exact ⟨s, rfl, .refl _ _ _⟩
  | succ n ih =>
    obtain ⟨t, ht, hw⟩ := ih fun m hm => hnot m (by omega)
    obtain ⟨u, hu, -, ⟨hwu, -⟩ | ⟨-, hpast⟩⟩ := waits_call hrun hloop hwait ht hw
    · exact ⟨u, hu, hwu⟩
    · exact absurd ⟨u, hu, hpast⟩ (hnot _ le_rfl)

/-- The fair host of R262 gets the machine past the Fx0A: its execution finds the key still down. -/
theorem exists_pastAfter (hfair : h.PressesThenExecutes) : ∃ n, PastAfter font h s n := by
  by_contra hnever
  have hall (n : Nat) : WaitsAfter font h s n :=
    waitsAfter_of_not_past hrun hloop hwait fun m _ hpast => hnever ⟨m, hpast⟩
  obtain ⟨m, e, k, -, hme, hk, hpress, hexec, hhold⟩ := hfair 0
  obtain ⟨t, ht, hw⟩ := hall e
  have hdown : t.keys[(⟨k, hk⟩ : Fin 16)] = true :=
    pressed_until hrun hloop hall hpress hhold hme le_rfl ht
  obtain ⟨u, hu, -, ⟨-, hnone⟩ | ⟨-, hpast⟩⟩ := waits_call hrun hloop hwait ht hw
  · cases hdown.symm.trans (hnone hexec _)
  · exact hnever ⟨e + 1, u, hu, hpast⟩

/-- With no key held and none pressed the machine waits for ever. -/
theorem waits_of_no_press (hnone : ∀ k : Fin 16, s.keys[k] = false)
    (hpress : ∀ n k, h n = .setKey (some k) true → 16 ≤ k) (n : Nat) :
    ∃ t, afterCalls font h s n = some t ∧ WaitsAs s t ∧ ∀ k : Fin 16, t.keys[k] = false := by
  induction n with
  | zero => exact ⟨s, rfl, .refl _ _ _, hnone⟩
  | succ n ih =>
    obtain ⟨t, ht, hw, hkeys⟩ := ih
    obtain ⟨u, hu, hcall, ⟨hwu, -⟩ | ⟨⟨k, hk⟩, -⟩⟩ := waits_call hrun hloop hwait ht hw
    · exact ⟨u, hu, hwu, fun k => hcall.keeps_latch (fun hop => absurd (hpress n k hop) (by omega)) (hkeys k)⟩
    · cases hk.symm.trans (hkeys k)

end KeyWait

/-- Settles O53: the first call that gets past the Fx0A is the one sought, and the machine waits until it. -/
theorem keyWaitEndsByTheHost : Obligations.KeyWaitEndsByTheHost := by
  intro font h s x hrun hwait hloop
  classical
  refine ⟨fun hfair => ?_, fun hnone hpress n => ?_⟩
  · have hpast := exists_pastAfter (font := font) hrun hloop hwait hfair
    obtain ⟨t, ht, htrun, hpc⟩ := Nat.find_spec hpast
    refine ⟨Nat.find hpast, t, ht, htrun, hpc, fun m hm => ?_⟩
    obtain ⟨u, hu, hw⟩ := waitsAfter_of_not_past hrun hloop hwait fun j hj => Nat.find_min hpast (hj.trans_lt hm)
    exact ⟨u, hu, hw.pc_eq⟩
  · obtain ⟨t, ht, hw, -⟩ := waits_of_no_press hrun hloop hwait hnone hpress n
    exact ⟨t, ht, hw.running hrun, hw.pc_eq, fun r => hw.2 r (by simp)⟩

/-! ### The delay timer (R262) -/

/-- What never rises, and falls by one again and again, comes to 0 and stays there. -/
theorem eventually_zero {d : Nat → Nat} {falls : Nat → Prop} (hle : ∀ n, d (n + 1) ≤ d n)
    (hfall : ∀ n, falls n → d (n + 1) = d n - 1) (hagain : ∀ n, ∃ m, n ≤ m ∧ falls m) : ∃ N, ∀ n, N ≤ n → d n = 0 := by
  have hanti : Antitone d := antitone_nat_of_succ_le hle
  have hzero (b : Nat) : ∀ n, d n ≤ b → ∃ N, d N = 0 := by
    induction b with
    | zero => exact fun n hn => ⟨n, by omega⟩
    | succ b ih =>
      intro n hn
      obtain ⟨m, hnm, hm⟩ := hagain n
      have hdm := hanti hnm
      exact ih (m + 1) (by rw [hfall m hm]; omega)
  obtain ⟨N, hN⟩ := hzero (d 0) 0 le_rfl
  exact ⟨N, fun n hn => Nat.le_zero.mp (hN ▸ hanti hn)⟩

/-- An Fx07 reads DT. -/
theorem DriverCall.getV_of_ldVxDt (hcall : DriverCall op s t) (hrun : s.Running) (hop : op = .executeOne)
    (hdecode : s.fetch.bind decodeWord = some (.ldVxDt x)) : t.getV x = s.dt := by
  subst hop
  cases hcall with
  | execute hstep =>
    rw [step_eq_exec_of_decodes hrun hdecode] at hstep
    cases hstep
    exact s.advance.getV_setV_self x s.dt

/-- Settles O54: DT never rises, each tick takes one from it until it is 0, and nothing but a tick changes it. -/
theorem delayTimerRunsOutByTheHost : Obligations.DelayTimerRunsOutByTheHost := by
  intro font h s hloop hsafe
  choose σ hσ hrun hno using hsafe
  have hcall (n : Nat) : DriverCall (h n) (σ n) (σ (n + 1)) :=
    driverCall_of_afterCalls hloop (hσ n) (hrun n) (hσ (n + 1))
  have hkeep (n : Nat) (hop : h n ≠ .advanceTimers) : (σ (n + 1)).dt = (σ n).dt := (hcall n).dt_of_no_tick hop (hno n)
  refine ⟨fun hticks => ?_, fun hnever n t ht => ?_⟩
  · have hle (n : Nat) : (σ (n + 1)).dt.toNat ≤ (σ n).dt.toNat := by
      by_cases hop : h n = .advanceTimers
      · exact (hcall n).dt_of_tick hop ▸ Nat.sub_le _ _
      · exact (congrArg BitVec.toNat (hkeep n hop)).le
    obtain ⟨N, hN⟩ := eventually_zero (d := fun n => (σ n).dt.toNat) hle (fun n => (hcall n).dt_of_tick) hticks
    have hzero (n : Nat) (hn : N ≤ n) : (σ n).dt = 0 := BitVec.eq_of_toNat_eq (hN n hn)
    exact ⟨N, fun hexec => hexec N, fun n hn => ⟨σ n, σ (n + 1), hσ n, hzero n hn, hσ (n + 1),
      fun x hop hdecode => ((hcall n).getV_of_ldVxDt (hrun n) hop hdecode).trans (hzero n hn)⟩⟩
  · cases (hσ n).symm.trans ht
    have hstart : (σ 0).dt = s.dt := congrArg State.dt (Option.some.inj (hσ 0)).symm
    induction n with
    | zero => exact hstart
    | succ n ih => exact (hkeep n (hnever n)).trans (ih (hσ n))

end Sys2Proof.Machine
end
